-- ==== Sys2Proof/Word.lean ====
section
/-! DEFINITION. The plain types of the BigInt CORE: command words, bytes, register numbers, bit sequences (spec/00_scope.md R9, R12, spec/30_encoding.md R55, R59). -/

namespace Sys2Proof

/-- One character of a byte stream (spec/20_memory.md R42: one character is one byte). -/
abbrev Byte := BitVec 8

/-- One command: a 64-bit word, bit 0 the least significant (R55). -/
abbrev CmdWord := BitVec 64

/-- The number of a value register, 0 to 15, all legal (R20, R59). -/
abbrev VReg := Fin 16

/-- A bit sequence (R9): the element at index `p` is the bit at POSITION `p`, position 0 the most significant.
A stored sequence is flat, its words only show in its length (spec/20_memory.md R53). The empty list is R9's `""`,
which is never stored. -/
abbrev Bits := List Bool

end Sys2Proof
end

