-- ==== Sys2Proof/Machine/Sequence.lean ====
section
/-! DEFINITION. Bit sequences, their values and how they are built (spec/00_scope.md R9 to R12). -/

namespace Sys2Proof.Machine

/-- `uval(x)`: the unsigned value, position 0 of the highest weight; `uval("") = 0` (R10). -/
def uval (x : Bits) : Nat := x.foldl (fun n b => 2 * n + b.toNat) 0

/-- `sign(x) = x@0` (R10). DESIGN CHOICE (safe), log entry 13: 0 for the empty sequence, which is never stored. -/
def sign (x : Bits) : Bool := x.headD false

/-- `lsb(x) = x@(len(x)-1)` (R10); 0 for the empty sequence (log entry 13). -/
def lsb (x : Bits) : Bool := x.getLastD false

/-- `sval(x) = uval(x) - sign(x) * 2^len(x)`: the two's-complement value (R10). -/
def sval (x : Bits) : Int := (uval x : Int) - (if sign x then 2 ^ x.length else 0)

/-- `rep(c, k)`: `k` copies of `c` (R11). -/
def rep (c : Bool) (k : Nat) : Bits := List.replicate k c

/-- The `L`-bit sequence of a natural number modulo `2^L`. -/
def natBits : Nat → Nat → Bits
  | 0, _ => []
  | L + 1, v => v.testBit L :: natBits L v

/-- `bits_L(v)`: the `L`-bit sequence with `uval = v mod 2^L` (R11). -/
def bitsOf (L : Nat) (v : Int) : Bits := natBits L (v % 2 ^ L).toNat

/-- `inv(x)`: every bit inverted (R11). -/
def inv (x : Bits) : Bits := x.map not

/-- `strip0(x)`: every leading 0 removed (R11). -/
def strip0 (x : Bits) : Bits := x.dropWhile fun b => b == false

/-- `ZERO`: one word of zeros (R12). -/
def zeroWord (W : Nat) : Bits := rep false W

/-- `ONE`: the stored form of +1 (R12). -/
def oneWord (W : Nat) : Bits := rep false (W - 1) ++ [true]

/-- `minneg(x)`: the most negative value of the sequence's own width (R12). -/
def minneg (x : Bits) : Bool := x == true :: rep false (x.length - 1)

end Sys2Proof.Machine
end

