-- ==== Sys2Proof/Machine/Normalizer.lean ====
section
/-! DEFINITION. The sign-extension normalizer (spec/40_representation.md R75 to R78). -/

namespace Sys2Proof.Machine

/-- `widen(x, L)`: copies of the sign bit in front until the length is `L` (R76). -/
def widen (x : Bits) (L : Nat) : Bits := rep (sign x) (L - x.length) ++ x

/-- The bits `compact` keeps: from the first one that differs from the sign on (R77). -/
def keptBits (x : Bits) : Bits := x.dropWhile fun b => b == sign x

/-- `compact(x)`: the kept bits with 1 to `W` copies of the sign bit in front, a whole number of words (R77; conflict C1, log
entry 12: at least one copy, so that the value stays). -/
def compact (W : Nat) (x : Bits) : Bits :=
  rep (sign x) (W - (keptBits x).length % W) ++ keptBits x

/-- `v` is in the range of a two's-complement number of `n` words (R78). -/
def fitsWords (W : Nat) (v : Int) (n : Nat) : Bool :=
  decide (-(2 ^ (n * W - 1) : Int) ≤ v) && decide (v < 2 ^ (n * W - 1))

/-- The least `n` from `n` on that holds `v`, looking at most `fuel` numbers far. -/
def leastWordsFrom (W : Nat) (v : Int) : Nat → Nat → Nat
  | 0, n => n
  | fuel + 1, n => if fitsWords W v n then n else leastWordsFrom W v fuel (n + 1)

/-- The least `n >= 1` with `-2^(n*W-1) <= v < 2^(n*W-1)` (R78); `|v| + 1` words always hold `v` when `W >= 2`. -/
def leastWords (W : Nat) (v : Int) : Nat := leastWordsFrom W v v.natAbs 1

/-- `canon(v)`: the unique shortest word-aligned sequence with signed value `v` (R14, R78). -/
def canon (W : Nat) (v : Int) : Bits := bitsOf (leastWords W v * W) v

end Sys2Proof.Machine
end

