-- ==== Sys2Proof/Machine/Adder.lean ====
section
/-! DEFINITION. The two's-complement adder/subtractor (spec/41_addsub.md R95 to R101). Step 3 adds integers, as R99 allows. -/

namespace Sys2Proof.Machine

/-- `negate(x)`: every bit inverted, then 1 added; the length stays and a carry out of position 0 is dropped (R95). The most
negative value of a width is its own negation (R96; conflict C2, log entry 12). -/
def negate (x : Bits) : Bits := bitsOf x.length ((uval (inv x) : Int) + 1)

/-- R97, steps 2 and 3: both operands widened to the longer length and added, the final carry dropped. -/
def rippleSum (a b : Bits) : Bits :=
  bitsOf (max a.length b.length)
    ((uval (widen a (max a.length b.length)) : Int) + uval (widen b (max a.length b.length)))

/-- R97, step 4: one more word of the operands' sign when equal signs gave the other sign. -/
def overflowWiden (W : Nat) (a b r : Bits) : Bits :=
  if sign a = sign b ∧ sign r ≠ sign a then rep (sign a) W ++ r else r

/-- `addseq(a, b)` (R97). -/
def addseq (W : Nat) (a b : Bits) : Bits := compact W (overflowWiden W a b (rippleSum a b))

/-- `subseq(a, b) = addseq(a, negate(b))` (R100). -/
def subseq (W : Nat) (a b : Bits) : Bits := addseq W a (negate b)

end Sys2Proof.Machine
end

