-- ==== Sys2Proof/Machine/Decimal.lean ====
section
/-! DEFINITION. The decimal conversion unit (spec/45_conversion.md R150 to R153). -/

namespace Sys2Proof.Machine

/-- An unsigned decimal string, the highest digit first. -/
abbrev Digits := List (Fin 10)

/-- Zeros in front until there are `n` digits: "a missing digit counts as 0" (R150). -/
def padDigits (n : Nat) (u : Digits) : Digits := List.replicate (n - u.length) 0 ++ u

/-- One digit place of R150: the carry out and the digits so far, this one in front. -/
def digitPlace (p : Fin 10 × Fin 10) (acc : Nat × Digits) : Nat × Digits :=
  ((p.1.val + p.2.val + acc.1) / 10, Fin.ofNat 10 (p.1.val + p.2.val + acc.1) :: acc.2)

/-- R150, all places from the last to the first. -/
def digitPlaces (u v : Digits) : Nat × Digits :=
  ((padDigits (max u.length v.length) u).zip (padDigits (max u.length v.length) v)).foldr digitPlace (0, [])

/-- R150: a carry left over becomes a digit 1 in front. -/
def withCarry (r : Nat × Digits) : Digits := if r.1 = 1 then 1 :: r.2 else r.2

/-- R150: leading zeros removed, "0" when nothing is left. -/
def trimDigits (d : Digits) : Digits :=
  match d.dropWhile fun c => c == 0 with
  | [] => [0]
  | c :: rest => c :: rest

/-- `decadd(u, v)`: schoolbook addition (R150). -/
def decadd (u v : Digits) : Digits := trimDigits (withCarry (digitPlaces u v))

/-- `k` doublings (R152). -/
def decDouble : Nat → Digits → Digits
  | 0, u => u
  | k + 1, u => decDouble k (decadd u u)

/-- R152, the scan from the least significant bit on: `i` the index of the next bit, `last` the index `pw` stands for. -/
def decLoop : Bits → Nat → Nat → Digits → Digits → Digits
  | [], _, _, _, acc => acc
  | c :: rest, i, last, pw, acc =>
    if c then decLoop rest (i + 1) i (decDouble (i - last) pw) (decadd acc (decDouble (i - last) pw))
    else decLoop rest (i + 1) last pw acc

/-- `tcmag(x)`: the magnitude bits of a negative sequence (R151). -/
def tcmag (x : Bits) : Bits := negate x

/-- The digits of the magnitude (R152). -/
def decDigits (x : Bits) : Digits := decLoop (if sign x then tcmag x else x).reverse 0 0 [1] [0]

/-- Digit `d` as its character `0x30 + d` (R42, R154). PRESUMED (unsafe if the codes were others), log entry 11. -/
def digitChar (d : Fin 10) : Byte := BitVec.ofNat 8 (0x30 + d.val)

/-- `todec(x)` as the bytes of its characters, `-` = 0x2D in front of a negative value (R152 to R154). -/
def todec (x : Bits) : List Byte :=
  if sign x then 0x2D#8 :: (decDigits x).map digitChar else (decDigits x).map digitChar

end Sys2Proof.Machine
end

