-- ==== Sys2Proof/Machine/Comparator.lean ====
section
/-! DEFINITION. The comparator tree and the order through the subtractor (spec/44_compare.md R140 to R143, spec/43_divide.md R120). -/

namespace Sys2Proof.Machine

/-- `equals(a, b)`: bit identity of the canonical forms (R141). -/
def equals (W : Nat) (a b : Bits) : Bool := compact W a == compact W b

/-- `lessthan(a, b)`: the sign of the difference (R143), the subtractor's corner at `minneg(b)` included (log entry 12). -/
def lessthan (W : Nat) (a b : Bits) : Bool := sign (subseq W a b)

/-- `window < divisor`, unsigned, lengths of no account (R120). -/
def ucmp (win B : Bits) : Bool := decide (uval win < uval B)

end Sys2Proof.Machine
end

