-- ==== Sys2Proof/Machine/Multiplier.lean ====
section
/-! DEFINITION. The barrel shifter and the shift-add multiplier (spec/42_multiply.md R110 to R112). -/

namespace Sys2Proof.Machine

/-- `shl(x, k)`: `k` zeros appended, nothing shifted out (R110). -/
def shl (x : Bits) (k : Nat) : Bits := x ++ rep false k

/-- R111, step 4, over the bits of `b` from the least significant on: a set bit adds `sh`, every bit shifts it. -/
def mulLoop (W : Nat) : Bits → Bits → Bits → Bits
  | [], acc, _ => acc
  | c :: rest, acc, sh => mulLoop W rest (if c then addseq W acc sh else acc) (shl sh 1)

/-- `mulseq(a, b)` (R111): the sign of `b` moves onto `a`, then every bit of `b` is scanned as an unsigned number. -/
def mulseq (W : Nat) (a b : Bits) : Bits :=
  if equals W b (zeroWord W) then zeroWord W
  else if sign b then mulLoop W (negate b).reverse (zeroWord W) (negate a)
  else mulLoop W b.reverse (zeroWord W) a

end Sys2Proof.Machine
end

