-- ==== Sys2Proof/Config.lean ====
section
/-! DEFINITION. What an implementation fixes (spec/00_scope.md R6) and the one free value, the random bits (spec/20_memory.md R50). -/

namespace Sys2Proof

/-- The parameters a model takes (R6). They are fixed when the block is built and no step changes them
(spec/10_state.md R28). `PORT_MAP` is used by no rule (spec/20_memory.md R45) and is not held. -/
structure Config where
  /-- `W`, the word width in bits (R6, R7). -/
  wordWidth : Nat
  /-- `CAP_WORDS`, the most words one register holds; `none` is unbounded (R6, R176). -/
  capWords  : Option Nat
  deriving DecidableEq, Repr

/-- The defaults of R6: `W = 8`, `CAP_WORDS` unbounded. -/
def Config.standard : Config := { wordWidth := 8, capWords := none }

/-- R6: any `W >= 2` gives a consistent machine. -/
abbrev Config.WF (c : Config) : Prop := 2 ≤ c.wordWidth

/-- DESIGN CHOICE (safe), log entry 7: a FREE VALUE. The answer of the random-bit source to the draw with this number,
counted from the first. It has no body: nothing in Lean can evaluate it, so a claim holds for every bit stream
(spec/93_implementation_defined.md U2, U4). -/
opaque Config.randomBit : Nat → Bool

end Sys2Proof
end

