-- ==== Sys2Proof/Machine/State.lean ====
section
/-! DEFINITION. The state of the BigInt CORE (spec/10_state.md), the ports and the environment it meets (spec/20_memory.md R48 to R52), its state after reset (R33), and why a step can stop. -/

namespace Sys2Proof.Machine

/-- One value register: its state and, when it holds one, its bit sequence (R20, R21). -/
inductive Reg where
  /-- EMPTY: no command has written the register since reset. -/
  | empty
  /-- BUILD: a value under construction. -/
  | build (x : Bits)
  /-- VALUE: an immutable value. -/
  | value (x : Bits)
  deriving DecidableEq, Repr

/-- The seven causes with which a command fails (spec/60_exceptions.md R165). Codes 8 to 15 are never produced, so they are no
constructors. A command that fails is a next state with a response, not a stop (R170). -/
inductive Cause where
  | rangeError | divisionByZero | formatError | emptyRegister | stateFault | illegalCommand | capacityFault
  deriving DecidableEq, Repr

/-- What one command gives the host: the word on `RSP` (R29) and the byte string on `DOUT` (spec/20_memory.md R48, R49). -/
structure Response where
  word : BitVec 32
  dout : List Byte
  deriving DecidableEq, Repr

/-- What the host may do to the block when it is idle (spec/20_memory.md R52): issue a command word with the bytes it puts on
`DIN`, or assert reset (spec/70_reset_and_hazards.md R190). -/
inductive HostAction where
  | command (w : CmdWord) (payload : List Byte)
  | reset
  deriving DecidableEq, Repr

/-- The random-bit source behind the port `RBIT` (spec/20_memory.md R50). DESIGN CHOICE (safe), log entries 7 and 8. -/
structure RandomSource where
  /-- Recorded answers, given first and in this order (R79: a replayed bit stream). -/
  script : List Bool
  /-- Whether the source answers once the script is used up (R192, R198). -/
  live   : Bool
  /-- How many draws have been made. -/
  drawn  : Nat
  deriving DecidableEq, Repr

/-- The machine. `regs`, `t` and `ferr` are the spec's state (spec/00_scope.md R18). The other fields are the model's own: what
stands at the ports and in the environment, held here because a step is a function of the state alone (log entries 1 to 8). -/
structure State where
  /-- `W` and `CAP_WORDS` (R6); never changed. -/
  cfg  : Config
  /-- `V[0]` to `V[15]` (R20). -/
  regs : Vector Reg 16
  /-- The flag `T` (R27). -/
  t    : Bool
  /-- `STATUS.FERR` (R28): the first failed command's cause since reset or the last `CLRERR`, none for 0. -/
  ferr : Option Cause
  /-- What the host does next, first action first (R52, R199). -/
  host : List HostAction
  /-- The payload on `DIN` of the command in progress (R48, R49). -/
  din  : List Byte
  /-- What the host has got back, the newest first (R29, R199). -/
  out  : List Response
  /-- The random-bit source (R50). -/
  rbit : RandomSource
  deriving DecidableEq, Repr

/-- Why the machine does not proceed. -/
inductive Fault where
  /-- Raised by `NEW` with the randomize flag when a draw is not answered: the command never completes and no response
  comes (R50, R198, U3 "stuck"). Safe. -/
  | drawUnanswered
  deriving DecidableEq, Repr

/-- Why the model gives a step no meaning. -/
inductive Refusal where
  /-- Raised by an arm of `exec` for an instruction that has no meaning yet. Safe. No arm of this model raises it. -/
  | notModelled (mnemonic : String)
  /-- Raised by `LDBITS` when the payload is not exactly `IMM` bytes long: no move is defined (R52, U12 "refuse"). Safe. -/
  | payloadLength
  deriving DecidableEq, Repr

/-- What a step answers. -/
abbrev Result := Host.Outcome State Fault Refusal

/-- The random-bit source at the start: nothing taken from it (R33), no recorded answers, answering (log entries 7 and 8). -/
def RandomSource.initial : RandomSource := { script := [], live := true, drawn := 0 }

/-- The machine right after reset (R33, R190): every register EMPTY, `T = 0`, `FERR = 0`, no response, no command in progress,
nothing drawn. The parameters are R6's defaults (log entries 1 and 2) and the host has issued nothing (log entry 3). -/
def State.reset : State where
  cfg  := Config.standard
  regs := Vector.replicate 16 Reg.empty
  t    := false
  ferr := none
  host := []
  din  := []
  out  := []
  rbit := RandomSource.initial

end Sys2Proof.Machine
end

