-- ==== Sys2Proof/Machine/Divider.lean ====
section
/-! DEFINITION. The binary long-division engine, quotient and remainder (spec/43_divide.md R120 to R128). -/

namespace Sys2Proof.Machine

/-- `mag(x)`: the magnitude without leading zeros, read unsigned (R121). -/
def mag (x : Bits) : Bits := strip0 (if sign x then negate x else x)

/-- R122, the window after taking in the next dividend bit: `m + 1` bits, `m` the divisor's length. -/
def shiftIn (B win : Bits) (c : Bool) : Bits := bitsOf (B.length + 1) (2 * (uval win : Int) + c.toNat)

/-- R122, the loop over the dividend bits still to come, with the quotient emitted so far and the window. -/
def divLoop (B : Bits) : Bits → Bits → Bits → Bits × Bits
  | [], q, win => (q, win)
  | c :: rest, q, win =>
    if ucmp (shiftIn B win c) B then divLoop B rest (q ++ [false]) (shiftIn B win c)
    else divLoop B rest (q ++ [true]) (bitsOf (B.length + 1) ((uval (shiftIn B win c) : Int) - uval B))

/-- R122: how many leading dividend bits prime the window. -/
def primeLength (A B : Bits) : Nat := min A.length (B.length - 1)

/-- `longdiv(A, B)`: the quotient bits and the final window (R122). -/
def longdiv (A B : Bits) : Bits × Bits :=
  divLoop B (A.drop (primeLength A B)) [] (bitsOf (B.length + 1) (uval (A.take (primeLength A B))))

/-- R124, step 6: a 0 sign bit in front of the magnitude, negated when the result is to be negative. -/
def applySign (s : Bool) (q : Bits) : Bits := if s then negate (false :: q) else false :: q

/-- `divseq(a, b)`: the quotient truncated toward zero; a zero divisor fails first (R124, R125; conflict C3, log entry 12). -/
def divseq (W : Nat) (a b : Bits) : Except Cause Bits :=
  if equals W b (zeroWord W) then .error .divisionByZero
  else if equals W a (zeroWord W) then .ok (zeroWord W)
  else .ok (compact W (applySign (sign a ^^ sign b) (longdiv (mag a) (mag b)).1))

/-- R127, step 2: a negative quotient is decremented with the subtractor. -/
def floorAdjust (W : Nat) (q : Bits) : Bits := if sign q then subseq W q (oneWord W) else q

/-- `modseq(a, b)`: `a - quotient*b` after the decrement, the quotient the first operand of the product (R127, R128). -/
def modseq (W : Nat) (a b : Bits) : Except Cause Bits :=
  match divseq W a b with
  | .error c => .error c
  | .ok q => .ok (subseq W a (mulseq W (floorAdjust W q) b))

end Sys2Proof.Machine
end

