-- ==== Sys2Proof/Syntax.lean ====
section
/-! DEFINITION. The seventeen commands of CS-1 (spec/30_encoding.md R57, R60), the fields of a command word (R56) and its formats (R57). -/

namespace Sys2Proof

/-- One command, one constructor per row of spec/opcode_table.json. Register operands are 0 to 15 and immediates are 32-bit by
their types (R58, R59), so every term is a command that can be encoded. -/
inductive Instr where
  /-- `NOP` (R160). -/
  | nop
  /-- `CLRERR` (R161). -/
  | clrerr
  /-- `NEW vd, bits[, rnd]` (R79); `rnd` is the flag `F`. -/
  | new (rd : VReg) (rnd : Bool) (imm : BitVec 32)
  /-- `SETBIT vd, pos` (R80). -/
  | setbit (rd : VReg) (imm : BitVec 32)
  /-- `SEAL vd` (R81). -/
  | sealv (rd : VReg)
  /-- `LDBITS vd, "s"` (R82); `imm` is the number of characters. -/
  | ldbits (rd : VReg) (imm : BitVec 32)
  /-- `RDBITS vs` (R83). -/
  | rdbits (rs1 : VReg)
  /-- `ADD vd, va, vb` (R102). -/
  | add (rd rs1 rs2 : VReg)
  /-- `SUB vd, va, vb` (R103). -/
  | sub (rd rs1 rs2 : VReg)
  /-- `MUL vd, va, vb` (R113). -/
  | mul (rd rs1 rs2 : VReg)
  /-- `DIV vd, va, vb` (R126). -/
  | div (rd rs1 rs2 : VReg)
  /-- `MOD vd, va, vb` (R129). -/
  | mod (rd rs1 rs2 : VReg)
  /-- `EQ va, vb` (R142). -/
  | eq (rs1 rs2 : VReg)
  /-- `LT va, vb` (R144). -/
  | lt (rs1 rs2 : VReg)
  /-- `ISNEG vs` (R145). -/
  | isneg (rs1 : VReg)
  /-- `ISODD vs` (R146). -/
  | isodd (rs1 : VReg)
  /-- `TODEC vs` (R154). -/
  | todec (rs1 : VReg)
  deriving DecidableEq, Repr

/-- The mnemonic of a command, as spec/opcode_table.json spells it. -/
def Instr.mnemonic : Instr → String
  | .nop => "NOP"
  | .clrerr => "CLRERR"
  | .new _ _ _ => "NEW"
  | .setbit _ _ => "SETBIT"
  | .sealv _ => "SEAL"
  | .ldbits _ _ => "LDBITS"
  | .rdbits _ => "RDBITS"
  | .add _ _ _ => "ADD"
  | .sub _ _ _ => "SUB"
  | .mul _ _ _ => "MUL"
  | .div _ _ _ => "DIV"
  | .mod _ _ _ => "MOD"
  | .eq _ _ => "EQ"
  | .lt _ _ => "LT"
  | .isneg _ => "ISNEG"
  | .isodd _ => "ISODD"
  | .todec _ => "TODEC"

/-- The fields of a command word, the same in every format (R56). -/
structure Fields where
  opc : BitVec 8
  rd  : BitVec 4
  rs1 : BitVec 4
  rs2 : BitVec 4
  z   : BitVec 11
  f   : BitVec 1
  imm : BitVec 32
  deriving DecidableEq, Repr

/-- The seven formats (R57). -/
inductive Format where
  | z0 | n | i | d | r3 | r2 | r1
  deriving DecidableEq, Repr

end Sys2Proof
end

