-- ==== Sys2Proof/WellFormed.lean ====
section
/-! DEFINITION. Which command words are well formed: the match and mask table of spec/30_encoding.md R60. -/

namespace Sys2Proof

/-- One row of R60: a word `w` is the command when `w AND mask = match`. -/
structure OpcodeRow where
  mnemonic : String
  /-- R60's column `match`. -/
  pattern  : CmdWord
  mask     : CmdWord
  deriving DecidableEq, Repr

/-- R60, row by row. -/
def opcodeRows : List OpcodeRow :=
  [ ⟨"NOP",    0x0000000000000000, 0xFFFFFFFFFFFFFFFF⟩,
    ⟨"CLRERR", 0x0100000000000000, 0xFFFFFFFFFFFFFFFF⟩,
    ⟨"NEW",    0x1000000000000000, 0xFF0FFFFE00000000⟩,
    ⟨"SETBIT", 0x1100000000000000, 0xFF0FFFFF00000000⟩,
    ⟨"SEAL",   0x1200000000000000, 0xFF0FFFFFFFFFFFFF⟩,
    ⟨"LDBITS", 0x1300000000000000, 0xFF0FFFFF00000000⟩,
    ⟨"RDBITS", 0x1400000000000000, 0xFFF0FFFFFFFFFFFF⟩,
    ⟨"ADD",    0x2000000000000000, 0xFF000FFFFFFFFFFF⟩,
    ⟨"SUB",    0x2100000000000000, 0xFF000FFFFFFFFFFF⟩,
    ⟨"MUL",    0x2200000000000000, 0xFF000FFFFFFFFFFF⟩,
    ⟨"DIV",    0x2300000000000000, 0xFF000FFFFFFFFFFF⟩,
    ⟨"MOD",    0x2400000000000000, 0xFF000FFFFFFFFFFF⟩,
    ⟨"EQ",     0x3000000000000000, 0xFFF00FFFFFFFFFFF⟩,
    ⟨"LT",     0x3100000000000000, 0xFFF00FFFFFFFFFFF⟩,
    ⟨"ISNEG",  0x3200000000000000, 0xFFF0FFFFFFFFFFFF⟩,
    ⟨"ISODD",  0x3300000000000000, 0xFFF0FFFFFFFFFFFF⟩,
    ⟨"TODEC",  0x4000000000000000, 0xFFF0FFFFFFFFFFFF⟩ ]

/-- `w` is the command of this row. -/
def OpcodeRow.covers (r : OpcodeRow) (w : CmdWord) : Bool := w &&& r.mask == r.pattern

/-- A well-formed command word is one that some row of R60 covers; every other word is illegal (R61). The decoder is written
from R66's procedure instead, and a statement says that the two agree. A term of `Instr` needs no check of its own: its
operands are within range by their types. -/
def wellFormedWord (w : CmdWord) : Bool := opcodeRows.any fun r => r.covers w

end Sys2Proof
end

