-- ==== Sys2Proof/Decode.lean ====
section
/-! DEFINITION. Decoding (spec/30_encoding.md R66), total on every 64-bit word and refusing by name, and the encoder written from the same tables (R56, R57, R60). -/

namespace Sys2Proof

/-- Why a word is no command (R61). Both raise IllegalCommand. -/
inductive DecodeError where
  /-- `OPC` is none of the seventeen values of R60. -/
  | unassignedOpcode
  /-- A must-be-zero field of the format is not zero (R57). -/
  | nonzeroField
  deriving DecidableEq, Repr

/-- The fields of a word, at the positions of R56. -/
def unpack (w : CmdWord) : Fields where
  opc := w.extractLsb' 56 8
  rd  := w.extractLsb' 52 4
  rs1 := w.extractLsb' 48 4
  rs2 := w.extractLsb' 44 4
  z   := w.extractLsb' 33 11
  f   := w.extractLsb' 32 1
  imm := w.extractLsb' 0 32

/-- A field, its lowest bit at bit `lo` of the word, every other bit zero. -/
def place {n : Nat} (x : BitVec n) (lo : Nat) : CmdWord := x.setWidth 64 <<< lo

/-- The word with these fields, each at its position of R56. -/
def pack (f : Fields) : CmdWord :=
  place f.opc 56 ||| place f.rd 52 ||| place f.rs1 48 ||| place f.rs2 44 ||| place f.z 33 ||| place f.f 32 ||| place f.imm 0

/-- A 4-bit register field as a register number (R59). -/
def regOf (r : BitVec 4) : VReg := r.toFin

/-- A register number as its 4-bit field (R59). -/
def regField (r : VReg) : BitVec 4 := BitVec.ofFin r

/-- R57, the column "must be zero": every field the format does not use is zero. -/
def Fields.unusedZero (f : Fields) : Format → Bool
  | .z0 => f.rd == 0 && f.rs1 == 0 && f.rs2 == 0 && f.z == 0 && f.f == 0 && f.imm == 0
  | .n  => f.rs1 == 0 && f.rs2 == 0 && f.z == 0
  | .i  => f.rs1 == 0 && f.rs2 == 0 && f.z == 0 && f.f == 0
  | .d  => f.rs1 == 0 && f.rs2 == 0 && f.z == 0 && f.f == 0 && f.imm == 0
  | .r3 => f.z == 0 && f.f == 0 && f.imm == 0
  | .r2 => f.rd == 0 && f.z == 0 && f.f == 0 && f.imm == 0
  | .r1 => f.rd == 0 && f.rs2 == 0 && f.z == 0 && f.f == 0 && f.imm == 0

/-- R60 by `OPC`: the format and the command with its operands; nothing for the 239 unassigned values (R61). -/
def assemble (f : Fields) : Option (Format × Instr) :=
  match f.opc with
  | 0x00#8 => some (.z0, .nop)
  | 0x01#8 => some (.z0, .clrerr)
  | 0x10#8 => some (.n, .new (regOf f.rd) (f.f == 1) f.imm)
  | 0x11#8 => some (.i, .setbit (regOf f.rd) f.imm)
  | 0x12#8 => some (.d, .sealv (regOf f.rd))
  | 0x13#8 => some (.i, .ldbits (regOf f.rd) f.imm)
  | 0x14#8 => some (.r1, .rdbits (regOf f.rs1))
  | 0x20#8 => some (.r3, .add (regOf f.rd) (regOf f.rs1) (regOf f.rs2))
  | 0x21#8 => some (.r3, .sub (regOf f.rd) (regOf f.rs1) (regOf f.rs2))
  | 0x22#8 => some (.r3, .mul (regOf f.rd) (regOf f.rs1) (regOf f.rs2))
  | 0x23#8 => some (.r3, .div (regOf f.rd) (regOf f.rs1) (regOf f.rs2))
  | 0x24#8 => some (.r3, .mod (regOf f.rd) (regOf f.rs1) (regOf f.rs2))
  | 0x30#8 => some (.r2, .eq (regOf f.rs1) (regOf f.rs2))
  | 0x31#8 => some (.r2, .lt (regOf f.rs1) (regOf f.rs2))
  | 0x32#8 => some (.r1, .isneg (regOf f.rs1))
  | 0x33#8 => some (.r1, .isodd (regOf f.rs1))
  | 0x40#8 => some (.r1, .todec (regOf f.rs1))
  | _ => none

/-- R66 on the fields: an unassigned `OPC` first, then the must-be-zero fields. -/
def decodeFields (f : Fields) : Except DecodeError Instr :=
  match assemble f with
  | none => .error .unassignedOpcode
  | some (fmt, i) => if f.unusedZero fmt then .ok i else .error .nonzeroField

/-- R66: the command a word is, or why it is none. It reads no state. -/
def decode (w : CmdWord) : Except DecodeError Instr := decodeFields (unpack w)

/-- The operation code of a command (R60). -/
def Instr.opc : Instr → BitVec 8
  | .nop => 0x00
  | .clrerr => 0x01
  | .new _ _ _ => 0x10
  | .setbit _ _ => 0x11
  | .sealv _ => 0x12
  | .ldbits _ _ => 0x13
  | .rdbits _ => 0x14
  | .add _ _ _ => 0x20
  | .sub _ _ _ => 0x21
  | .mul _ _ _ => 0x22
  | .div _ _ _ => 0x23
  | .mod _ _ _ => 0x24
  | .eq _ _ => 0x30
  | .lt _ _ => 0x31
  | .isneg _ => 0x32
  | .isodd _ => 0x33
  | .todec _ => 0x40

/-- The fields of a word with this operation code and every other field zero (R57). -/
def bareFields (opc : BitVec 8) : Fields :=
  { opc := opc, rd := 0, rs1 := 0, rs2 := 0, z := 0, f := 0, imm := 0 }

/-- The fields a command sets (R57, R64); the others stay zero. -/
def Instr.fields (i : Instr) : Fields :=
  match i with
  | .nop | .clrerr => bareFields i.opc
  | .new rd rnd imm => { bareFields i.opc with rd := regField rd, f := BitVec.ofBool rnd, imm := imm }
  | .setbit rd imm | .ldbits rd imm => { bareFields i.opc with rd := regField rd, imm := imm }
  | .sealv rd => { bareFields i.opc with rd := regField rd }
  | .add rd rs1 rs2 | .sub rd rs1 rs2 | .mul rd rs1 rs2 | .div rd rs1 rs2 | .mod rd rs1 rs2 =>
    { bareFields i.opc with rd := regField rd, rs1 := regField rs1, rs2 := regField rs2 }
  | .eq rs1 rs2 | .lt rs1 rs2 => { bareFields i.opc with rs1 := regField rs1, rs2 := regField rs2 }
  | .rdbits rs1 | .isneg rs1 | .isodd rs1 | .todec rs1 => { bareFields i.opc with rs1 := regField rs1 }

/-- The command word of a command (R56, R60). -/
def encode (i : Instr) : CmdWord := pack i.fields

/-- The decoder's reading of a word whose low `nbits` bits are those of `w`, numbered as spec/opcode_table.json numbers them.
A command is one 64-bit word (R55), so the bits above `nbits` are zero. -/
def tableWord (nbits w : Nat) : CmdWord := BitVec.ofNat 64 (w % 2 ^ nbits)

/-- The instruction the decoder reads from an opcode-table word, `none` where it refuses. -/
def decodeTableWord (nbits w : Nat) : Option Instr :=
  match decode (tableWord nbits w) with
  | .ok i => some i
  | .error _ => none

end Sys2Proof
end

