-- ==== Sys2Proof/Machine/Flags.lean ====
section
/-! DEFINITION. `T`, `FERR` and the response word (spec/10_state.md R27 to R29, spec/60_exceptions.md R165). -/

namespace Sys2Proof.Machine

/-- The code of a cause (R165). -/
def Cause.code : Cause → BitVec 4
  | .rangeError => 1
  | .divisionByZero => 2
  | .formatError => 3
  | .emptyRegister => 4
  | .stateFault => 5
  | .illegalCommand => 6
  | .capacityFault => 7

/-- `STATUS.FERR` as its 4-bit field: the cause code, 0 for none (R28). -/
def State.ferrField (s : State) : BitVec 4 :=
  match s.ferr with
  | none => 0
  | some c => c.code

/-- `STATUS`: `FERR` in bits 3:0, `T` in bit 4 (R28). It is visible through the response only. -/
def State.status (s : State) : BitVec 5 := (BitVec.ofBool s.t).setWidth 5 <<< 4 ||| s.ferrField.setWidth 5

/-- The response word: `CODE` in bits 3:0, `T` in bit 4, `FERR` in bits 11:8, every other bit 0 (R29). -/
def responseWord (code : BitVec 4) (t : Bool) (ferr : BitVec 4) : BitVec 32 :=
  code.setWidth 32 ||| (BitVec.ofBool t).setWidth 32 <<< 4 ||| ferr.setWidth 32 <<< 8

/-- `T <- b` (R27). -/
def State.setT (s : State) (b : Bool) : State := { s with t := b }

/-- `if FERR = 0: FERR <- E`: the first fault is kept (R28, R170). -/
def State.noteFault (s : State) (c : Cause) : State :=
  { s with ferr := match s.ferr with
                   | none => some c
                   | some first => some first }

/-- `FERR <- 0` (R161). -/
def State.clearFerr (s : State) : State := { s with ferr := none }

end Sys2Proof.Machine
end

