-- ==== Sys2Proof/Machine/Ops.lean ====
section
/-! DEFINITION. The named operations on the state: the register file, the response, success and fault entry (spec/60_exceptions.md R170, R171), the random source, reset, and taking the host's next action. -/

namespace Sys2Proof.Machine

/-- `V[i]` (R13, R20). -/
def State.read (s : State) (i : VReg) : Reg := s.regs[i.val]

/-- `V[i] <- r`: what the register held is discarded (R13, R24). -/
def State.write (s : State) (i : VReg) (r : Reg) : State := { s with regs := s.regs.set i.val r }

/-- The response with this code and these `DOUT` bytes, `T` and `FERR` as they are now (R29). The payload of the command is
used up or discarded with it (spec/20_memory.md R49). -/
def State.respond (s : State) (code : BitVec 4) (dout : List Byte) : State :=
  { s with out := { word := responseWord code s.t s.ferrField, dout := dout } :: s.out, din := [] }

/-- Success (R171): `CODE = 0`; `FERR` is not cleared. -/
def State.succeed (s : State) (dout : List Byte) : State := s.respond 0 dout

/-- FAULT ENTRY, `raise E` (R170), the one shared operation for it: no register and not `T` changes, no `DOUT` bytes, the
payload discarded, nothing drawn, `FERR` set if it was 0, the response with `CODE = E`. There is no handler to go to and
nothing to return from (R174). -/
def State.raise (s : State) (c : Cause) : State := (s.noteFault c).respond c.code []

/-- `draw()`: the next bit of the random source, nothing when it does not answer (R50). -/
def RandomSource.draw (r : RandomSource) : Option (Bool × RandomSource) :=
  match r.script with
  | b :: rest => some (b, { r with script := rest, drawn := r.drawn + 1 })
  | [] => if r.live then some (Config.randomBit r.drawn, { r with drawn := r.drawn + 1 }) else none

/-- `n` draws, the first one position 0 (R79). -/
def RandomSource.drawBits : Nat → RandomSource → Option (Bits × RandomSource)
  | 0, r => some ([], r)
  | n + 1, r =>
    match r.draw with
    | none => none
    | some (b, r1) =>
      match RandomSource.drawBits n r1 with
      | none => none
      | some (x, r2) => some (b :: x, r2)

/-- The random source after some draws. -/
def State.setRbit (s : State) (r : RandomSource) : State := { s with rbit := r }

/-- The reset signal, between commands (R190): every register EMPTY, `T = 0`, `FERR = 0`. The parameters stay (R191); the random
source is outside the block and the responses given are the host's already (log entry 10). -/
def State.resetBlock (s : State) : State :=
  { s with regs := Vector.replicate 16 Reg.empty, t := false, ferr := none, din := [] }

/-- The host's next action is taken: the rest stays for later. -/
def State.setHost (s : State) (rest : List HostAction) : State := { s with host := rest }

/-- The block accepts a command: its payload stands on `DIN` (R48). -/
def State.setDin (s : State) (payload : List Byte) : State := { s with din := payload }

/-- What the port `CMD` shows an idle block. -/
inductive Arrival where
  /-- Nothing: the block waits (R190). -/
  | idle
  /-- The reset signal. -/
  | reset
  /-- A command word; its payload is on `DIN` already. -/
  | word (w : CmdWord)
  deriving DecidableEq, Repr

/-- The host's first action, and the state in which the block meets it (R48, R52). -/
def fetch (s : State) : Arrival × State :=
  match s.host with
  | [] => (.idle, s)
  | .reset :: rest => (.reset, s.setHost rest)
  | .command w payload :: rest => (.word w, (s.setHost rest).setDin payload)

/-- The payload a host that keeps its duty sends with a word when only the word is given: for `LDBITS` exactly `IMM` bytes
(R52), each the character `0`, and no byte with any other word. -/
def dutifulPayload (w : CmdWord) : List Byte :=
  match decode w with
  | .ok (.ldbits _ imm) => List.replicate imm.toNat 0x30#8
  | _ => []

end Sys2Proof.Machine
end

