-- ==== Sys2Proof/Machine/Operands.lean ====
section
/-! DEFINITION. The operand forms: the register checks (spec/60_exceptions.md R172), the capacity check (R176), the immediate of `NEW` (spec/40_representation.md R79), bit strings on `DIN` and `DOUT` (R82, R83), and the shapes the commands share. -/

namespace Sys2Proof.Machine

/-- `needVALUE(i)`, then the value's bits (R172). -/
def needValue (s : State) (i : VReg) : Except Cause Bits :=
  match s.read i with
  | .empty => .error .emptyRegister
  | .build _ => .error .stateFault
  | .value x => .ok x

/-- `needBUILD(i)`, then the builder's bits (R172). -/
def needBuild (s : State) (i : VReg) : Except Cause Bits :=
  match s.read i with
  | .empty => .error .emptyRegister
  | .value _ => .error .stateFault
  | .build x => .ok x

/-- A register can hold `n` words: always when `CAP_WORDS` is unbounded (R176). -/
def holdsWords (c : Config) (n : Nat) : Bool :=
  match c.capWords with
  | none => true
  | some cap => decide (n ≤ cap)

/-- `capcheck(y)` passes (R176). -/
def capOk (c : Config) (y : Bits) : Bool := holdsWords c (y.length / c.wordWidth)

/-- R79: `max(1, ceil(IMM / W))`, the words `NEW` allocates. -/
def allocWords (W : Nat) (imm : BitVec 32) : Nat := max 1 ((imm.toNat + W - 1) / W)

/-- R82: the bits of a payload, nothing when some byte is neither `0` nor `1`. Character codes: R42, log entry 11. -/
def parseBits : List Byte → Option Bits
  | [] => some []
  | b :: rest =>
    match parseBits rest with
    | none => none
    | some x => if b = 0x31#8 then some (true :: x) else if b = 0x30#8 then some (false :: x) else none

/-- R83: the stored bits as characters, position 0 first. -/
def renderBits (x : Bits) : List Byte := x.map fun b => if b then 0x31#8 else 0x30#8

/-- The end of a command with a value as its result: `capcheck`, then the write (R172, R176). -/
def storeValue (s : State) (rd : VReg) (y : Bits) : Result :=
  if capOk s.cfg y then .next ((s.write rd (.value y)).succeed []) else .next (s.raise .capacityFault)

/-- The shape of format R3: both sources checked and read, `RS1` first, the operation, the store. -/
def arith (op : Nat → Bits → Bits → Except Cause Bits) (rd rs1 rs2 : VReg) (s : State) : Result :=
  match needValue s rs1 with
  | .error c => .next (s.raise c)
  | .ok a =>
    match needValue s rs2 with
    | .error c => .next (s.raise c)
    | .ok b =>
      match op s.cfg.wordWidth a b with
      | .error c => .next (s.raise c)
      | .ok y => storeValue s rd y

/-- The shape of format R2: both sources checked and read, `RS1` first, `T` written. -/
def compareRegs (p : Nat → Bits → Bits → Bool) (rs1 rs2 : VReg) (s : State) : Result :=
  match needValue s rs1 with
  | .error c => .next (s.raise c)
  | .ok a =>
    match needValue s rs2 with
    | .error c => .next (s.raise c)
    | .ok b => .next ((s.setT (p s.cfg.wordWidth a b)).succeed [])

/-- The shape of the one-operand predicates: `T` written with a bit of the value. -/
def testReg (p : Bits → Bool) (rs1 : VReg) (s : State) : Result :=
  match needValue s rs1 with
  | .error c => .next (s.raise c)
  | .ok x => .next ((s.setT (p x)).succeed [])

/-- The shape of the commands that give a byte string: no state changes (R44). -/
def emitReg (g : Bits → List Byte) (rs1 : VReg) (s : State) : Result :=
  match needValue s rs1 with
  | .error c => .next (s.raise c)
  | .ok x => .next (s.succeed (g x))

end Sys2Proof.Machine
end

