-- ==== Sys2Proof/Machine/Arithmetic.lean ====
section
/-! DEFINITION. The arithmetic commands: `ADD`, `SUB` (spec/41_addsub.md), `MUL` (spec/42_multiply.md), `DIV`, `MOD` (spec/43_divide.md). -/

namespace Sys2Proof.Machine

/-- `ADD` (R102). -/
def execAdd (rd rs1 rs2 : VReg) (s : State) : Result := arith (fun W a b => .ok (addseq W a b)) rd rs1 rs2 s

/-- `SUB` (R103). -/
def execSub (rd rs1 rs2 : VReg) (s : State) : Result := arith (fun W a b => .ok (subseq W a b)) rd rs1 rs2 s

/-- `MUL` (R113). -/
def execMul (rd rs1 rs2 : VReg) (s : State) : Result := arith (fun W a b => .ok (mulseq W a b)) rd rs1 rs2 s

/-- `DIV` (R126). -/
def execDiv (rd rs1 rs2 : VReg) (s : State) : Result := arith divseq rd rs1 rs2 s

/-- `MOD` (R129). -/
def execMod (rd rs1 rs2 : VReg) (s : State) : Result := arith modseq rd rs1 rs2 s

end Sys2Proof.Machine
end

