-- ==== Sys2Proof/Machine/Conversion.lean ====
section
/-! DEFINITION. Decimal rendering: `TODEC` (spec/45_conversion.md R154). -/

namespace Sys2Proof.Machine

/-- `TODEC` (R154). -/
def execTodec (rs1 : VReg) (s : State) : Result := emitReg todec rs1 s

end Sys2Proof.Machine
end

