-- ==== Sys2Proof/Machine/Predicates.lean ====
section
/-! DEFINITION. Comparison and predicates: `EQ`, `LT`, `ISNEG`, `ISODD` (spec/44_compare.md). They write `T` and nothing else. -/

namespace Sys2Proof.Machine

/-- `EQ` (R142). -/
def execEq (rs1 rs2 : VReg) (s : State) : Result := compareRegs equals rs1 rs2 s

/-- `LT` (R144): is `a < b`, through the subtractor. -/
def execLt (rs1 rs2 : VReg) (s : State) : Result := compareRegs lessthan rs1 rs2 s

/-- `ISNEG` (R145): position 0. -/
def execIsneg (rs1 : VReg) (s : State) : Result := testReg sign rs1 s

/-- `ISODD` (R146): the last position. -/
def execIsodd (rs1 : VReg) (s : State) : Result := testReg lsb rs1 s

end Sys2Proof.Machine
end

