-- ==== Sys2Proof/Machine/Representation.lean ====
section
/-! DEFINITION. Construction and bit strings: `NEW`, `SETBIT`, `SEAL`, `LDBITS`, `RDBITS` (spec/40_representation.md R79 to R83). -/

namespace Sys2Proof.Machine

/-- `NEW` (R79): a builder of whole words, zeroed or drawn; capacity is checked before any draw (R170). A draw that is never
answered leaves the command hanging (R198). The old content of `V[RD]` is not looked at. -/
def execNew (rd : VReg) (rnd : Bool) (imm : BitVec 32) (s : State) : Result :=
  if holdsWords s.cfg (allocWords s.cfg.wordWidth imm) then
    if rnd then
      match s.rbit.drawBits (allocWords s.cfg.wordWidth imm * s.cfg.wordWidth) with
      | none => .fault .drawUnanswered
      | some (x, src) => .next (((s.setRbit src).write rd (.build x)).succeed [])
    else .next ((s.write rd (.build (rep false (allocWords s.cfg.wordWidth imm * s.cfg.wordWidth)))).succeed [])
  else .next (s.raise .capacityFault)

/-- `SETBIT` (R80): the bit at position `IMM` of a builder is set; position 0 is the most significant bit (U5). -/
def execSetbit (rd : VReg) (imm : BitVec 32) (s : State) : Result :=
  match needBuild s rd with
  | .error c => .next (s.raise c)
  | .ok x =>
    if imm.toNat < x.length then .next ((s.write rd (.build (x.set imm.toNat true))).succeed [])
    else .next (s.raise .rangeError)

/-- `SEAL` (R81): the builder becomes a value, its bits kept exactly. -/
def execSeal (rd : VReg) (s : State) : Result :=
  match needBuild s rd with
  | .error c => .next (s.raise c)
  | .ok x => .next ((s.write rd (.value x)).succeed [])

/-- `LDBITS` (R82): the payload parsed, the first character the sign, and stored in canonical form. A payload that is not `IMM`
bytes long has no move (R52, U12), log entry 6. -/
def execLdbits (rd : VReg) (imm : BitVec 32) (s : State) : Result :=
  if s.din.length = imm.toNat then
    if imm.toNat = 0 then .next (s.raise .formatError)
    else
      match parseBits s.din with
      | none => .next (s.raise .formatError)
      | some x => storeValue s rd (compact s.cfg.wordWidth x)
  else .refused .payloadLength

/-- `RDBITS` (R83): the stored bits on `DOUT`. -/
def execRdbits (rs1 : VReg) (s : State) : Result := emitReg renderBits rs1 s

end Sys2Proof.Machine
end

