-- ==== Sys2Proof/Machine/System.lean ====
section
/-! DEFINITION. The system commands (spec/46_system.md). -/

namespace Sys2Proof.Machine

/-- `NOP` (R160): nothing; the response shows `T` and `FERR`. -/
def execNop (s : State) : Result := .next (s.succeed [])

/-- `CLRERR` (R161): `FERR <- 0`. -/
def execClrerr (s : State) : Result := .next (s.clearFerr.succeed [])

end Sys2Proof.Machine
end

