-- ==== Sys2Proof/Machine/Dispatch.lean ====
section
/-! DEFINITION. The dispatch: one arm per command. -/

namespace Sys2Proof.Machine

def exec (i : Instr) (s : State) : Host.Outcome State Fault Refusal :=
  match i with
  | .nop => Sys2Proof.Machine.execNop s
  | .clrerr => Sys2Proof.Machine.execClrerr s
  | .new rd rnd imm => Sys2Proof.Machine.execNew rd rnd imm s
  | .setbit rd imm => Sys2Proof.Machine.execSetbit rd imm s
  | .sealv rd => Sys2Proof.Machine.execSeal rd s
  | .ldbits rd imm => Sys2Proof.Machine.execLdbits rd imm s
  | .rdbits rs1 => Sys2Proof.Machine.execRdbits rs1 s
  | .add rd rs1 rs2 => Sys2Proof.Machine.execAdd rd rs1 rs2 s
  | .sub rd rs1 rs2 => Sys2Proof.Machine.execSub rd rs1 rs2 s
  | .mul rd rs1 rs2 => Sys2Proof.Machine.execMul rd rs1 rs2 s
  | .div rd rs1 rs2 => Sys2Proof.Machine.execDiv rd rs1 rs2 s
  | .mod rd rs1 rs2 => Sys2Proof.Machine.execMod rd rs1 rs2 s
  | .eq rs1 rs2 => Sys2Proof.Machine.execEq rs1 rs2 s
  | .lt rs1 rs2 => Sys2Proof.Machine.execLt rs1 rs2 s
  | .isneg rs1 => Sys2Proof.Machine.execIsneg rs1 s
  | .isodd rs1 => Sys2Proof.Machine.execIsodd rs1 s
  | .todec rs1 => Sys2Proof.Machine.execTodec rs1 s

end Sys2Proof.Machine
end

