-- ==== Sys2Proof/Machine/Step.lean ====
section
/-! DEFINITION. One step: the host's next action taken whole, a command to completion (spec/20_memory.md R44, R47, R48). -/

namespace Sys2Proof.Machine

/-- A command word that has arrived: decoded first (R172), then executed; a word that is no command raises IllegalCommand (R61). -/
def runWord (w : CmdWord) (s : State) : Host.Outcome State Fault Refusal :=
  match decode w with
  | .error _ => .next (s.raise .illegalCommand)
  | .ok i => exec i s

/-- One step. With nothing from the host the block waits, unchanged (R190; DESIGN CHOICE, safe, log entry 9). -/
def step (s : State) : Host.Outcome State Fault Refusal :=
  match fetch s with
  | (.idle, s1) => .next s1
  | (.reset, s1) => .next s1.resetBlock
  | (.word w, s1) => runWord w s1

/-- `s` with the host about to issue this word, before anything else it does, with the payload its duty asks for (R52), so
that the next step runs it (log entry 3). -/
def State.withFetchWord (s : State) (nbits w : Nat) : State :=
  s.setHost (.command (tableWord nbits w) (dutifulPayload (tableWord nbits w)) :: s.host)

end Sys2Proof.Machine
end

