-- ==== Sys2Proof/Safety.lean ====
section
/-! DEFINITION. The terms in which claims are stated: stored sequences and the invariant (spec/10_state.md R22), the fields of a response (R29), which registers and flags a command touches (R27, R34, R172), decimal numerals (R153), wrapping values (R128). -/

namespace Sys2Proof.Machine

/-- R22: a stored sequence is a positive whole number of words, at most `CAP_WORDS` of them. -/
abbrev Storable (c : Config) (x : Bits) : Prop := x ≠ [] ∧ c.wordWidth ∣ x.length ∧ capOk c x = true

/-- R23: the sequence is its own compact form. -/
abbrev Canonical (W : Nat) (x : Bits) : Prop := compact W x = x

/-- R22 for one register. It plays the part of a memory's canonical form on this hardware, which has no memory (R31). -/
def Reg.wf (c : Config) : Reg → Bool
  | .empty => true
  | .build x => decide (Storable c x)
  | .value x => decide (Storable c x)

/-- `CODE`: the outcome of the command (R29). -/
def Response.code (r : Response) : BitVec 4 := r.word.extractLsb' 0 4

/-- The bit `T` of a response (R29). -/
def Response.tBit (r : Response) : Bool := r.word.getLsbD 4

/-- The field `FERR` of a response (R29). -/
def Response.ferr (r : Response) : BitVec 4 := r.word.extractLsb' 8 4

/-- Bits 7:5 and 31:12 of a response are 0, and its codes are assigned ones (R29, R165, U9). -/
def Response.wf (r : Response) : Bool :=
  r.word.extractLsb' 5 3 == 0 && r.word.extractLsb' 12 20 == 0 && decide (r.code.toNat ≤ 7) && decide (r.ferr.toNat ≤ 7)

/-- What holds between commands in every run: a word width of R6, every register as R22 says, every response given as R29
says. -/
abbrev State.Inv (s : State) : Prop :=
  s.cfg.WF ∧ (∀ i : VReg, (s.read i).wf s.cfg = true) ∧ ∀ r ∈ s.out, r.wf = true

/-- The code of the newest response; nothing when none was given. -/
def State.lastCode (s : State) : Option (BitVec 4) := s.out.head?.map Response.code

/-- The least number of whole words for `bits` bits, at least one (R79): what `n` is for `NEW`. -/
abbrev IsWordCount (W bits n : Nat) : Prop := 1 ≤ n ∧ bits ≤ n * W ∧ (n = 1 ∨ (n - 1) * W < bits)

/-- R128: a value whose canonical form is the most negative one of its width. -/
abbrev Wrapping (W : Nat) (v : Int) : Prop := ∃ j : Nat, 1 ≤ j ∧ v = -(2 ^ (j * W - 1) : Int)

/-- The value of an unsigned decimal string (R150). -/
def digitsValue (d : Digits) : Nat := d.foldl (fun n c => 10 * n + c.val) 0

/-- The characters of the ordinary decimal numeral of an integer: `-` in front of a negative one, no leading zeros, "0" for
zero (R153). -/
def numeral (v : Int) : List Byte :=
  (if v < 0 then [0x2D#8] else []) ++
    (if v = 0 then [0x30#8] else (Nat.digits 10 v.natAbs).reverse.map fun d => BitVec.ofNat 8 (0x30 + d))

/-- R128, `q2`: the truncated quotient, decremented when negative. -/
def decQuotient (A B : Int) : Int := if A.tdiv B < 0 then A.tdiv B - 1 else A.tdiv B

/-- R112, outside the fourth row: the product of these operands has the value one expects. -/
abbrev MulExact (a b : Bits) : Prop := ¬(minneg a = true ∧ sval b < 0)

/-- R128: `v` is the value of the remainder of `A` by `B`, through the product `P`. -/
def ModAnswer (W : Nat) (A B v : Int) : Prop :=
  ∃ P : Int,
    ((B < 0 ∧ Wrapping W (decQuotient A B)) → P = -(decQuotient A B * B)) ∧
    (¬(B < 0 ∧ Wrapping W (decQuotient A B)) → P = decQuotient A B * B) ∧
    (Wrapping W P → v = A + P) ∧ (¬Wrapping W P → v = A - P)

/-- A host action that is a command. -/
def HostAction.isCommand : HostAction → Bool
  | .command _ _ => true
  | .reset => false

end Sys2Proof.Machine

namespace Sys2Proof

open Machine

/-- The register a command may write (R34); none for a command that names no destination. -/
def Instr.dest : Instr → Option VReg
  | .new rd _ _ => some rd
  | .setbit rd _ => some rd
  | .sealv rd => some rd
  | .ldbits rd _ => some rd
  | .add rd _ _ => some rd
  | .sub rd _ _ => some rd
  | .mul rd _ _ => some rd
  | .div rd _ _ => some rd
  | .mod rd _ _ => some rd
  | .nop | .clrerr | .rdbits _ | .eq _ _ | .lt _ _ | .isneg _ | .isodd _ | .todec _ => none

/-- The registers a command needs as VALUE, in the order in which they are checked (R172). -/
def Instr.valueSources : Instr → List VReg
  | .add _ rs1 rs2 => [rs1, rs2]
  | .sub _ rs1 rs2 => [rs1, rs2]
  | .mul _ rs1 rs2 => [rs1, rs2]
  | .div _ rs1 rs2 => [rs1, rs2]
  | .mod _ rs1 rs2 => [rs1, rs2]
  | .eq rs1 rs2 => [rs1, rs2]
  | .lt rs1 rs2 => [rs1, rs2]
  | .isneg rs1 => [rs1]
  | .isodd rs1 => [rs1]
  | .rdbits rs1 => [rs1]
  | .todec rs1 => [rs1]
  | .nop | .clrerr | .new _ _ _ | .setbit _ _ | .sealv _ | .ldbits _ _ => []

/-- The register a command needs as BUILD (R172). -/
def Instr.builderSource : Instr → Option VReg
  | .setbit rd _ => some rd
  | .sealv rd => some rd
  | .nop | .clrerr | .new _ _ _ | .ldbits _ _ | .rdbits _ | .add _ _ _ | .sub _ _ _ | .mul _ _ _ | .div _ _ _
  | .mod _ _ _ | .eq _ _ | .lt _ _ | .isneg _ | .isodd _ | .todec _ => none

/-- The four commands that write `T` (R27). -/
def Instr.writesT : Instr → Bool
  | .eq _ _ | .lt _ _ | .isneg _ | .isodd _ => true
  | .nop | .clrerr | .new _ _ _ | .setbit _ _ | .sealv _ | .ldbits _ _ | .rdbits _ | .add _ _ _ | .sub _ _ _
  | .mul _ _ _ | .div _ _ _ | .mod _ _ _ | .todec _ => false

/-- The commands that draw random bits: `NEW` with the randomize flag (R50). -/
def Instr.draws : Instr → Bool
  | .new _ rnd _ => rnd
  | .nop | .clrerr | .setbit _ _ | .sealv _ | .ldbits _ _ | .rdbits _ | .add _ _ _ | .sub _ _ _ | .mul _ _ _
  | .div _ _ _ | .mod _ _ _ | .eq _ _ | .lt _ _ | .isneg _ | .isodd _ | .todec _ => false

/-- The host's duty for a command (R52): exactly `IMM` bytes with `LDBITS`. -/
def Instr.payloadKept (i : Instr) (payload : List Byte) : Prop :=
  match i with
  | .ldbits _ imm => payload.length = imm.toNat
  | _ => True

/-- R198's proviso: the source answers the draws the command makes, from its script or because it is live. -/
def Instr.drawsAnswered (i : Instr) (s : State) : Prop :=
  match i with
  | .new _ true imm =>
    s.rbit.live = true ∨ allocWords s.cfg.wordWidth imm * s.cfg.wordWidth ≤ s.rbit.script.length
  | _ => True

end Sys2Proof
end

