-- ==== Sys2Proof/Certificates/Slice0/Obligations.lean ====
section
/-! DEFINITION. The statements about the BigInt CORE for the provers. The machine has no memory (spec/10_state.md R31): where a frame would speak of memory, the register file stands in its place. `W` and `CAP_WORDS` range over every value R6 allows. -/

open Sys2Proof Sys2Proof.Machine

/-! ### Encoding -/

/-- R66, R57: decoding the word of a command gives the command back, every operand at every value. -/
def Obligations.DecodeEncode : Prop := ∀ i : Instr, decode (encode i) = .ok i

/-- R57, R61: a command has one word only; a word that decodes is the encoding of what it decodes to. -/
def Obligations.EncodeDecode : Prop := ∀ (w : CmdWord) (i : Instr), decode w = .ok i → encode i = w

/-- R60: a word is a row's command by R66's procedure exactly when `w AND mask = match` of that row. -/
def Obligations.DecodeMatchesMask : Prop :=
  ∀ (w : CmdWord), ∀ r ∈ opcodeRows,
    (∃ i, decode w = .ok i ∧ i.mnemonic = r.mnemonic) ↔ w &&& r.mask = r.pattern

/-- Words of spec/95_test_vectors.md section 3.11 and what they decode as, one of each opcode family and three illegal ones. -/
def Obligations.SpecWordsDecode : Prop :=
  decode 0x0100000000000000 = .ok .clrerr ∧
  decode 0x1000000100000008 = .ok (.new 0 true 8) ∧
  decode 0x13F00000FFFFFFFF = .ok (.ldbits 15 4294967295) ∧
  decode 0x2012300000000000 = .ok (.add 1 2 3) ∧
  decode 0x3002300000000000 = .ok (.eq 2 3) ∧
  decode 0x4003000000000000 = .ok (.todec 3) ∧
  decode 0x0200000000000000 = .error .unassignedOpcode ∧
  decode 0x2012310000000000 = .error .nonzeroField ∧
  decode 0x1200000000000001 = .error .nonzeroField

/-! ### Steps, reset, the invariant -/

/-- A command word that has arrived and decodes to `i` is executed as `i`, its payload on `DIN`, the host's later actions
kept (R47, R48, R66). -/
def Obligations.StepRunsDecoded : Prop :=
  ∀ (s : State) (rest : List HostAction) (w : CmdWord) (payload : List Byte) (i : Instr),
    s.host = .command w payload :: rest → decode w = .ok i →
      step s = exec i ((s.setHost rest).setDin payload)

/-- R61: a word that no row of R60 covers raises IllegalCommand: code 6, no register and not `T` changed, nothing drawn, no
output bytes, the payload discarded. -/
def Obligations.IllegalWordFails : Prop :=
  ∀ (s : State) (rest : List HostAction) (w : CmdWord) (payload : List Byte),
    s.host = .command w payload :: rest → wellFormedWord w = false →
      ∃ t r, step s = .next t ∧ t.regs = s.regs ∧ t.t = s.t ∧ t.rbit = s.rbit ∧ t.cfg = s.cfg ∧ t.host = rest ∧
        t.din = [] ∧ t.out = r :: s.out ∧ r.code = 6 ∧ r.dout = [] ∧
        (s.ferr = none → t.ferr = some .illegalCommand) ∧ (∀ c, s.ferr = some c → t.ferr = some c)

/-- R190: reset from any state leaves every register EMPTY, `T = 0`, `FERR = 0` and no command in progress; R191: the parameters
are not affected. The model's choices: with nothing from the host a step changes nothing (log entry 9); reset leaves the
random-bit source as it is, which R191 leaves open, and also the responses already given and the host's later actions (log
entry 10). -/
def Obligations.StepWaitsAndResets : Prop :=
  (∀ s : State, s.host = [] → step s = .next s) ∧
  ∀ (s : State) (rest : List HostAction), s.host = .reset :: rest →
    ∃ t, step s = .next t ∧ (∀ i, t.read i = .empty) ∧ t.t = false ∧ t.ferr = none ∧ t.cfg = s.cfg ∧
      t.rbit = s.rbit ∧ t.out = s.out ∧ t.host = rest ∧ t.din = []

/-- R33: every register EMPTY, `T = 0`, `FERR = 0`, no response pending, no command in progress, nothing taken from the
random-bit source. -/
def Obligations.ResetState : Prop :=
  (∀ i, State.reset.read i = .empty) ∧ State.reset.t = false ∧ State.reset.ferr = none ∧ State.reset.ferrField = 0 ∧
    State.reset.out = [] ∧ State.reset.din = [] ∧ State.reset.rbit.drawn = 0

/-- The invariant holds at reset. -/
def Obligations.ResetInv : Prop := State.reset.Inv

/-- R22, R29: from every state that meets the invariant a step gives a state that meets it: every stored sequence stays a
positive whole number of words within capacity, and every response keeps its reserved bits 0 and an assigned code. -/
def Obligations.StepKeepsInv : Prop := ∀ s t : State, s.Inv → step s = .next t → t.Inv

/-! ### The arithmetic units -/

/-- R76: `widen` puts copies of the sign in front, keeps the signed value, and adds `2^L - 2^len(x)` to the unsigned value of
a negative sequence only. -/
def Obligations.WidenValue : Prop :=
  ∀ (x : Bits) (L : Nat), x ≠ [] → x.length ≤ L →
    widen x L = rep (sign x) (L - x.length) ++ x ∧ (widen x L).length = L ∧ sval (widen x L) = sval x ∧
      widen x x.length = x ∧ (0 ≤ sval x → uval (widen x L) = uval x) ∧
      (sval x < 0 → (uval (widen x L) : Int) = uval x + (2 ^ L - 2 ^ x.length))

/-- R78: `compact` keeps the signed value, gives the least number of words that holds it, is idempotent, depends on the signed
value only, and is `canon` of it. -/
def Obligations.CompactCanonical : Prop :=
  ∀ (W : Nat) (x : Bits), 2 ≤ W → x ≠ [] →
    sval (compact W x) = sval x ∧
    (∃ n : Nat, 1 ≤ n ∧ (compact W x).length = n * W ∧
      (-(2 ^ (n * W - 1) : Int) ≤ sval x ∧ sval x < 2 ^ (n * W - 1)) ∧
      ∀ m : Nat, 1 ≤ m → -(2 ^ (m * W - 1) : Int) ≤ sval x → sval x < 2 ^ (m * W - 1) → n ≤ m) ∧
    compact W (compact W x) = compact W x ∧
    (∀ y : Bits, y ≠ [] → sval y = sval x → compact W y = compact W x) ∧
    compact W x = canon W (sval x) ∧
    canon W 0 = zeroWord W ∧ canon W (-1) = rep true W

/-- R95, R96: `negate` keeps the length; zero and the most negative value of a width are left as they are, every other value
is negated; it is its own inverse; read unsigned it is the magnitude of a negative sequence; and `x + negate(x)` is 0 except
at the most negative value, where it is `2 * sval(x)`. -/
def Obligations.NegateValue : Prop :=
  ∀ (W : Nat) (x : Bits), 2 ≤ W → x ≠ [] →
    (negate x).length = x.length ∧ negate x = bitsOf x.length (2 ^ x.length - (uval x : Int)) ∧
    (sval x = 0 → negate x = x) ∧ (minneg x = true → negate x = x ∧ sval x = -(2 ^ (x.length - 1) : Int)) ∧
    (minneg x = false → sval (negate x) = -sval x) ∧ negate (negate x) = x ∧
    (sval x < 0 → (uval (negate x) : Int) = -sval x) ∧
    sval (addseq W x (negate x)) = if minneg x then 2 * sval x else 0

/-- R98: the adder is exact for sequences of any lengths; it is commutative and associative, and adding `ZERO` compacts. -/
def Obligations.AddExact : Prop :=
  ∀ (W : Nat) (a b : Bits), 2 ≤ W → a ≠ [] → b ≠ [] →
    sval (addseq W a b) = sval a + sval b ∧ addseq W a b = canon W (sval a + sval b) ∧
    addseq W a b = addseq W b a ∧ addseq W a (zeroWord W) = compact W a ∧
    ∀ c : Bits, c ≠ [] → addseq W (addseq W a b) c = addseq W a (addseq W b c)

/-- R101: the subtractor is exact unless the subtrahend is the most negative value of its own width, where it adds. -/
def Obligations.SubValue : Prop :=
  ∀ (W : Nat) (a b : Bits), 2 ≤ W → a ≠ [] → b ≠ [] →
    (minneg b = false → sval (subseq W a b) = sval a - sval b) ∧
    (minneg b = true → sval (subseq W a b) = sval a + sval b)

/-- R112: the four rows of the multiplier's value; the product is canonical; and outside the fourth row the multiplier is
commutative, associative and distributes over the adder. That they need not hold inside it is said by the fourth
row's value: its sign is wrong. -/
def Obligations.MulValue : Prop :=
  ∀ (W : Nat) (a b : Bits), 2 ≤ W → a ≠ [] → b ≠ [] →
    (sval b = 0 → sval (mulseq W a b) = 0) ∧ (0 < sval b → sval (mulseq W a b) = sval a * sval b) ∧
    (sval b < 0 → minneg a = false → sval (mulseq W a b) = sval a * sval b) ∧
    (sval b < 0 → minneg a = true → sval (mulseq W a b) = -(sval a * sval b)) ∧
    (sval a = 0 → sval (mulseq W a b) = 0) ∧ Canonical W (mulseq W a b) ∧
    (MulExact a b → MulExact b a → mulseq W a b = mulseq W b a) ∧
    ∀ c : Bits, c ≠ [] →
      (MulExact a b → MulExact (mulseq W a b) c → MulExact b c → MulExact a (mulseq W b c) →
        mulseq W (mulseq W a b) c = mulseq W a (mulseq W b c)) ∧
      (MulExact a b → MulExact a c → MulExact a (addseq W b c) →
        mulseq W a (addseq W b c) = addseq W (mulseq W a b) (mulseq W a c))

/-- R121: the magnitude read unsigned is the absolute value, the most negative value included; it is empty exactly for zero,
and otherwise has no leading zero and as many bits as the absolute value. -/
def Obligations.MagValue : Prop :=
  ∀ x : Bits, x ≠ [] →
    uval (mag x) = (sval x).natAbs ∧ (mag x = [] ↔ ∀ b ∈ x, b = false) ∧
    (mag x ≠ [] → (mag x).head? = some true ∧ 2 ^ ((mag x).length - 1) ≤ (sval x).natAbs ∧
      (sval x).natAbs < 2 ^ (mag x).length)

/-- R123: the long-division engine gives the quotient and the remainder of the magnitudes; R122: as many quotient bits as
dividend bits that did not prime the window. -/
def Obligations.LongDivision : Prop :=
  ∀ A B : Bits, A.head? = some true → B.head? = some true →
    uval (longdiv A B).1 = uval A / uval B ∧ uval (longdiv A B).2 = uval A % uval B ∧
    (longdiv A B).1.length = A.length - min A.length (B.length - 1) ∧ (longdiv A B).2.length = B.length + 1

/-- R125: the quotient is rounded toward zero, exact for every operand. -/
def Obligations.DivValue : Prop :=
  ∀ (W : Nat) (a b : Bits), 2 ≤ W → a ≠ [] → b ≠ [] → sval b ≠ 0 →
    ∃ q, divseq W a b = .ok q ∧ Canonical W q ∧ sval q = (sval a).tdiv (sval b) ∧
      sval q = (sval a).sign * (sval b).sign * (((sval a).natAbs / (sval b).natAbs : Nat) : Int)

/-- R128, the exact value of the remainder with both wrapping conditions. -/
def Obligations.ModValue : Prop :=
  ∀ (W : Nat) (a b : Bits), 2 ≤ W → a ≠ [] → b ≠ [] → sval b ≠ 0 →
    ∃ r, modseq W a b = .ok r ∧ Canonical W r ∧ ModAnswer W (sval a) (sval b) (sval r)

/-- R128, the table outside the two wrapping conditions, row by row, and where it agrees with the floor remainder. -/
def Obligations.ModRows : Prop :=
  ∀ (W : Nat) (a b r : Bits), 2 ≤ W → a ≠ [] → b ≠ [] → sval b ≠ 0 → modseq W a b = .ok r →
    ¬(sval b < 0 ∧ Wrapping W (decQuotient (sval a) (sval b))) →
    ¬Wrapping W (decQuotient (sval a) (sval b) * sval b) →
      (0 ≤ sval a * sval b → sval r = (sval a).tmod (sval b) ∧ sval r = (sval a).fmod (sval b)) ∧
      ((sval a).tdiv (sval b) < 0 → (sval a).tmod (sval b) ≠ 0 →
        sval r = (sval a).tmod (sval b) + sval b ∧ sval r = (sval a).fmod (sval b)) ∧
      ((sval a).tdiv (sval b) < 0 → (sval a).tmod (sval b) = 0 →
        sval r = sval b ∧ (sval a).fmod (sval b) = 0) ∧
      (sval a * sval b < 0 → (sval a).natAbs < (sval b).natAbs →
        sval r = sval a ∧ (sval a).fmod (sval b) = sval a + sval b)

/-- R129, R130: for a non-negative dividend and a positive divisor `DIV` is the floor quotient, `MOD` the ordinary remainder,
and the division identity holds. -/
def Obligations.DivModNonnegative : Prop :=
  ∀ (W : Nat) (a b : Bits), 2 ≤ W → a ≠ [] → b ≠ [] → 0 ≤ sval a → 0 < sval b →
    ∃ q r, divseq W a b = .ok q ∧ modseq W a b = .ok r ∧ sval q = sval a / sval b ∧ sval r = sval a % sval b ∧
      addseq W (mulseq W q b) r = compact W a

/-- R141: equality is bit identity of the canonical forms, and that is equality of the signed values. -/
def Obligations.EqualsValue : Prop :=
  ∀ (W : Nat) (a b : Bits), 2 ≤ W → a ≠ [] → b ≠ [] →
    (equals W a b = true ↔ compact W a = compact W b) ∧ (equals W a b = true ↔ sval a = sval b)

/-- R143: the order through the subtractor, right unless the second operand is the most negative value of its own width, and
where it is wrong. -/
def Obligations.LessThanValue : Prop :=
  ∀ (W : Nat) (a b : Bits), 2 ≤ W → a ≠ [] → b ≠ [] →
    lessthan W a b = sign (subseq W a b) ∧
    (minneg b = false → (lessthan W a b = true ↔ sval a < sval b)) ∧
    (minneg b = true → (lessthan W a b = true ↔ sval a < 2 ^ (b.length - 1))) ∧
    (minneg b = true → -(2 ^ (b.length - 1) : Int) ≤ sval a → sval a < 2 ^ (b.length - 1) →
      lessthan W a b = true ∧ ¬sval a < sval b)

/-- R150: schoolbook addition of decimal strings adds their values; the result has no leading zeros except the string "0". -/
def Obligations.DecaddValue : Prop :=
  ∀ u v : Digits,
    digitsValue (decadd u v) = digitsValue u + digitsValue v ∧
    (decadd u v = [0] ∨ ∃ d rest, decadd u v = d :: rest ∧ d ≠ 0)

/-- R153: decimal rendering is the ordinary decimal numeral of the signed value, whatever the stored length. -/
def Obligations.TodecValue : Prop := ∀ x : Bits, x ≠ [] → todec x = numeral (sval x)

/-! ### What the commands do when they run -/

/-- R160, R161: `NOP` changes nothing and shows `T` and `FERR`; `CLRERR` clears `FERR` and nothing else. -/
def Obligations.NopClrerrRun : Prop :=
  ∀ s : State,
    (∃ t r, exec .nop s = .next t ∧ t.regs = s.regs ∧ t.t = s.t ∧ t.ferr = s.ferr ∧ t.cfg = s.cfg ∧ t.host = s.host ∧
      t.rbit = s.rbit ∧ t.out = r :: s.out ∧ r.code = 0 ∧ r.tBit = s.t ∧ r.ferr = s.ferrField ∧ r.dout = []) ∧
    (∃ t r, exec .clrerr s = .next t ∧ t.regs = s.regs ∧ t.t = s.t ∧ t.ferr = none ∧ t.cfg = s.cfg ∧ t.host = s.host ∧
      t.rbit = s.rbit ∧ t.out = r :: s.out ∧ r.code = 0 ∧ r.tBit = s.t ∧ r.ferr = 0 ∧ r.dout = [])

/-- R79, the flag 0: a builder of `n` words of zeros, `n` the least number of words, at least one, that holds `IMM` bits;
whatever `V[RD]` held. -/
def Obligations.NewZeroed : Prop :=
  ∀ (s : State) (rd : VReg) (imm : BitVec 32) (n : Nat), s.cfg.WF → IsWordCount s.cfg.wordWidth imm.toNat n →
    holdsWords s.cfg n = true →
      exec (.new rd false imm) s = .next ((s.write rd (.build (List.replicate (n * s.cfg.wordWidth) false))).succeed [])

/-- R79, R50, the flag 1: exactly `n*W` draws, position 0 first, each the next recorded answer or else the free bit of its
number; the source has moved on by that many draws. The free bit is any bit (log entry 7). -/
def Obligations.NewRandom : Prop :=
  ∀ (s : State) (rd : VReg) (imm : BitVec 32) (n : Nat), s.cfg.WF → IsWordCount s.cfg.wordWidth imm.toNat n →
    holdsWords s.cfg n = true → (s.rbit.live = true ∨ n * s.cfg.wordWidth ≤ s.rbit.script.length) →
      ∃ x : Bits, x.length = n * s.cfg.wordWidth ∧
        (∀ p, p < n * s.cfg.wordWidth → x[p]? = some (s.rbit.script.getD p (Config.randomBit (s.rbit.drawn + p)))) ∧
        exec (.new rd true imm) s =
          .next (((s.setRbit { script := s.rbit.script.drop (n * s.cfg.wordWidth), live := s.rbit.live,
                               drawn := s.rbit.drawn + n * s.cfg.wordWidth }).write rd (.build x)).succeed [])

/-- R198: when a draw is never answered the command never completes. The model's form of it is a named fault (log entry 8). -/
def Obligations.NewUnanswered : Prop :=
  ∀ (s : State) (rd : VReg) (imm : BitVec 32) (n : Nat), s.cfg.WF → IsWordCount s.cfg.wordWidth imm.toNat n →
    holdsWords s.cfg n = true → s.rbit.live = false → s.rbit.script.length < n * s.cfg.wordWidth →
      exec (.new rd true imm) s = .fault .drawUnanswered

/-- R80: within the allocated width the bit at position `IMM`, and no other, becomes 1. -/
def Obligations.SetbitRun : Prop :=
  ∀ (s : State) (rd : VReg) (imm : BitVec 32) (x : Bits), s.read rd = .build x → imm.toNat < x.length →
    ∃ y : Bits, y.length = x.length ∧ (∀ p : Nat, y[p]? = if p = imm.toNat then some true else x[p]?) ∧
      exec (.setbit rd imm) s = .next ((s.write rd (.build y)).succeed [])

/-- R81: a builder becomes a value with exactly its bits, and a second `SEAL` of it, or a `SETBIT`, fails with StateFault. -/
def Obligations.SealRun : Prop :=
  ∀ (s : State) (rd : VReg) (x : Bits), s.read rd = .build x →
    ∃ t, exec (.sealv rd) s = .next t ∧ t = (s.write rd (.value x)).succeed [] ∧ t.read rd = .value x ∧
      exec (.sealv rd) t = .next (t.raise .stateFault) ∧
      ∀ imm, exec (.setbit rd imm) t = .next (t.raise .stateFault)

/-- R82: a payload of `0` and `1` characters is read first character first and stored in canonical form. -/
def Obligations.LdbitsRun : Prop :=
  ∀ (s : State) (rd : VReg) (imm : BitVec 32) (x : Bits), s.Inv → x ≠ [] → x.length = imm.toNat →
    s.din = x.map (fun b : Bool => if b then 0x31#8 else 0x30#8) → capOk s.cfg (canon s.cfg.wordWidth (sval x)) = true →
      exec (.ldbits rd imm) s = .next ((s.write rd (.value (canon s.cfg.wordWidth (sval x)))).succeed [])

/-- R52: for a payload that is not `IMM` bytes long no move is defined; the step is refused. -/
def Obligations.LdbitsPayloadLength : Prop :=
  ∀ (s : State) (rd : VReg) (imm : BitVec 32), s.din.length ≠ imm.toNat ↔
    exec (.ldbits rd imm) s = .refused .payloadLength

/-- R83: the stored bits, one character each, position 0 first, and no state changed. -/
def Obligations.RdbitsRun : Prop :=
  ∀ (s : State) (rs1 : VReg) (x : Bits), s.read rs1 = .value x →
    ∃ d : List Byte, d.length = x.length ∧
      (∀ p : Nat, d[p]? = (x[p]?).map fun b : Bool => if b then 0x31#8 else 0x30#8) ∧
      exec (.rdbits rs1) s = .next (s.succeed d)

/-- R83: the output of `RDBITS` fed back through `LDBITS` gives the canonical form of the same value. It always fits. -/
def Obligations.RdbitsThenLdbits : Prop :=
  ∀ (s : State) (rs1 rd : VReg) (imm : BitVec 32) (x : Bits), s.Inv → s.read rs1 = .value x → x.length = imm.toNat →
    ∃ t r, exec (.rdbits rs1) s = .next t ∧ t.out = r :: s.out ∧
      exec (.ldbits rd imm) (t.setDin r.dout) =
        .next (((t.setDin r.dout).write rd (.value (canon s.cfg.wordWidth (sval x)))).succeed [])

/-- R102: `ADD` writes the canonical form of the sum; source and destination may be the same register (R194). -/
def Obligations.AddRun : Prop :=
  ∀ (s : State) (rd rs1 rs2 : VReg) (a b : Bits), s.Inv → s.read rs1 = .value a → s.read rs2 = .value b →
    capOk s.cfg (canon s.cfg.wordWidth (sval a + sval b)) = true →
      exec (.add rd rs1 rs2) s = .next ((s.write rd (.value (canon s.cfg.wordWidth (sval a + sval b)))).succeed [])

/-- R103: `SUB` writes the canonical form of the difference, of the sum when the subtrahend is `minneg`. -/
def Obligations.SubRun : Prop :=
  ∀ (s : State) (rd rs1 rs2 : VReg) (a b : Bits) (v : Int), s.Inv → s.read rs1 = .value a → s.read rs2 = .value b →
    (v = if minneg b then sval a + sval b else sval a - sval b) → capOk s.cfg (canon s.cfg.wordWidth v) = true →
      exec (.sub rd rs1 rs2) s = .next ((s.write rd (.value (canon s.cfg.wordWidth v))).succeed [])

/-- R113: `MUL` writes the canonical form of the product, with the wrong sign in the fourth row of R112. -/
def Obligations.MulRun : Prop :=
  ∀ (s : State) (rd rs1 rs2 : VReg) (a b : Bits) (v : Int), s.Inv → s.read rs1 = .value a → s.read rs2 = .value b →
    (v = if sval b < 0 ∧ minneg a = true then -(sval a * sval b) else sval a * sval b) →
    capOk s.cfg (canon s.cfg.wordWidth v) = true →
      exec (.mul rd rs1 rs2) s = .next ((s.write rd (.value (canon s.cfg.wordWidth v))).succeed [])

/-- R126: `DIV` by a divisor that is not zero writes the canonical form of the quotient rounded toward zero. -/
def Obligations.DivRun : Prop :=
  ∀ (s : State) (rd rs1 rs2 : VReg) (a b : Bits), s.Inv → s.read rs1 = .value a → s.read rs2 = .value b →
    sval b ≠ 0 → capOk s.cfg (canon s.cfg.wordWidth ((sval a).tdiv (sval b))) = true →
      exec (.div rd rs1 rs2) s =
        .next ((s.write rd (.value (canon s.cfg.wordWidth ((sval a).tdiv (sval b))))).succeed [])

/-- R129: `MOD` by a divisor that is not zero writes the canonical form of R128's value; only the final result must fit. -/
def Obligations.ModRun : Prop :=
  ∀ (s : State) (rd rs1 rs2 : VReg) (a b : Bits) (v : Int), s.Inv → s.read rs1 = .value a → s.read rs2 = .value b →
    sval b ≠ 0 → ModAnswer s.cfg.wordWidth (sval a) (sval b) v → capOk s.cfg (canon s.cfg.wordWidth v) = true →
      exec (.mod rd rs1 rs2) s = .next ((s.write rd (.value (canon s.cfg.wordWidth v))).succeed [])

/-- R142, R144: `EQ` and `LT` write `T` and nothing else; `LT` is wrong for a `minneg` second operand as R143 says. -/
def Obligations.EqLtRun : Prop :=
  ∀ (s : State) (rs1 rs2 : VReg) (a b : Bits), s.Inv → s.read rs1 = .value a → s.read rs2 = .value b →
    exec (.eq rs1 rs2) s = .next ((s.setT (decide (sval a = sval b))).succeed []) ∧
    exec (.lt rs1 rs2) s =
      .next ((s.setT (if minneg b then decide (sval a < 2 ^ (b.length - 1)) else decide (sval a < sval b))).succeed [])

/-- R145, R146: `ISNEG` and `ISODD` write `T` with the sign and the parity of the value, in any stored length. -/
def Obligations.IsnegIsoddRun : Prop :=
  ∀ (s : State) (rs1 : VReg) (x : Bits), s.Inv → s.read rs1 = .value x →
    exec (.isneg rs1) s = .next ((s.setT (decide (sval x < 0))).succeed []) ∧
    exec (.isodd rs1) s = .next ((s.setT (decide (sval x % 2 = 1))).succeed [])

/-- R154: `TODEC` gives the decimal numeral of the value and changes no state. -/
def Obligations.TodecRun : Prop :=
  ∀ (s : State) (rs1 : VReg) (x : Bits), s.Inv → s.read rs1 = .value x →
    exec (.todec rs1) s = .next (s.succeed (numeral (sval x)))

/-! ### How commands fail -/

/-- R172: the registers a command reads are checked in order, EMPTY before a wrong state, before anything else; the first that
fails is the one reported. -/
def Obligations.SourceChecks : Prop :=
  (∀ (i : Instr) (s : State) (pre : List VReg) (r : VReg) (post : List VReg),
    i.valueSources = pre ++ r :: post → (∀ q ∈ pre, ∃ x, s.read q = .value x) →
      (s.read r = .empty → exec i s = .next (s.raise .emptyRegister)) ∧
      ((∃ x, s.read r = .build x) → exec i s = .next (s.raise .stateFault))) ∧
  ∀ (i : Instr) (s : State) (r : VReg), i.builderSource = some r →
    (s.read r = .empty → exec i s = .next (s.raise .emptyRegister)) ∧
    ((∃ x, s.read r = .value x) → exec i s = .next (s.raise .stateFault))

/-- R166: RangeError is raised by `SETBIT` on a builder at or beyond its allocated width, and by nothing else. -/
def Obligations.RangeErrorExactly : Prop :=
  ∀ (i : Instr) (s t : State), exec i s = .next t →
    (t.lastCode = some 1 ↔
      ∃ rd imm x, i = .setbit rd imm ∧ s.read rd = .build x ∧ x.length ≤ imm.toNat)

/-- R167: DivisionByZero is raised by `DIV` and `MOD` when every bit of the divisor is 0, whatever the dividend, and by nothing
else. -/
def Obligations.DivisionByZeroExactly : Prop :=
  ∀ (i : Instr) (s t : State), s.Inv → exec i s = .next t →
    (t.lastCode = some 2 ↔
      ∃ rd rs1 rs2 a b, (i = .div rd rs1 rs2 ∨ i = .mod rd rs1 rs2) ∧ s.read rs1 = .value a ∧
        s.read rs2 = .value b ∧ ∀ c ∈ b, c = false)

/-- R168: FormatError is raised by `LDBITS` when the payload is empty or holds any byte other than 0x30 and 0x31, and by
nothing else. -/
def Obligations.FormatErrorExactly : Prop :=
  ∀ (i : Instr) (s t : State), exec i s = .next t →
    (t.lastCode = some 3 ↔
      ∃ rd imm, i = .ldbits rd imm ∧ (imm.toNat = 0 ∨ ∃ c ∈ s.din, c ≠ 0x30#8 ∧ c ≠ 0x31#8))

/-- R176, R79: a result that does not fit fails with CapacityFault and nothing is written; `NEW` makes the same test on its
number of words, before any draw and with either flag; with `CAP_WORDS` unbounded no command ever fails so. -/
def Obligations.CapacityChecks : Prop :=
  (∀ (s : State) (rd : VReg) (rnd : Bool) (imm : BitVec 32) (n : Nat), s.cfg.WF →
    IsWordCount s.cfg.wordWidth imm.toNat n → holdsWords s.cfg n = false →
      exec (.new rd rnd imm) s = .next (s.raise .capacityFault)) ∧
  (∀ (s : State) (rd : VReg) (imm : BitVec 32) (x : Bits), s.Inv → x ≠ [] → x.length = imm.toNat →
    s.din = x.map (fun b : Bool => if b then 0x31#8 else 0x30#8) →
    capOk s.cfg (canon s.cfg.wordWidth (sval x)) = false →
      exec (.ldbits rd imm) s = .next (s.raise .capacityFault)) ∧
  (∀ (s : State) (rd rs1 rs2 : VReg) (a b : Bits) (v : Int) (i : Instr), s.Inv → s.read rs1 = .value a →
    s.read rs2 = .value b →
    ((i = .add rd rs1 rs2 ∧ v = sval a + sval b) ∨
     (i = .sub rd rs1 rs2 ∧ v = if minneg b then sval a + sval b else sval a - sval b) ∨
     (i = .mul rd rs1 rs2 ∧ v = if sval b < 0 ∧ minneg a = true then -(sval a * sval b) else sval a * sval b) ∨
     (i = .div rd rs1 rs2 ∧ sval b ≠ 0 ∧ v = (sval a).tdiv (sval b)) ∨
     (i = .mod rd rs1 rs2 ∧ sval b ≠ 0 ∧ ModAnswer s.cfg.wordWidth (sval a) (sval b) v)) →
    capOk s.cfg (canon s.cfg.wordWidth v) = false → exec i s = .next (s.raise .capacityFault)) ∧
  ∀ (i : Instr) (s t : State), s.cfg.capWords = none → exec i s = .next t → t.lastCode ≠ some 7

/-- R170: a command that fails with code `E` changes no register, not `T`, draws nothing and gives no output bytes; its payload
is discarded; the first fault is kept in `FERR`; the response shows `E`, `T` and `FERR`; the host's next action is awaited. -/
def Obligations.FaultEntry : Prop :=
  ∀ (w : CmdWord) (s t : State) (E : BitVec 4), runWord w s = .next t → t.lastCode = some E → E ≠ 0 →
    t.regs = s.regs ∧ t.t = s.t ∧ t.rbit = s.rbit ∧ t.din = [] ∧ t.cfg = s.cfg ∧ t.host = s.host ∧
    (∃ c : Cause, c.code = E ∧ (s.ferr = none → t.ferr = some c)) ∧ (∀ c, s.ferr = some c → t.ferr = some c) ∧
    ∃ r, t.out = r :: s.out ∧ r.dout = [] ∧ r.code = E ∧ r.tBit = t.t ∧ r.ferr = t.ferrField

/-- R29: every command returns one response, with 0 or the cause code in `CODE`, `T` and `FERR` as they are after the command,
and every other bit 0. -/
def Obligations.ResponseWord : Prop :=
  ∀ (w : CmdWord) (s t : State), runWord w s = .next t →
    ∃ r, t.out = r :: s.out ∧ (r.code = 0 ∨ ∃ c : Cause, r.code = c.code) ∧ r.tBit = t.t ∧ r.ferr = t.ferrField ∧
      r.word.extractLsb' 5 3 = 0 ∧ r.word.extractLsb' 12 20 = 0

/-! ### Frames -/

/-- The commands with a destination (`NEW`, `SETBIT`, `SEAL`, `LDBITS`, `ADD`, `SUB`, `MUL`, `DIV`, `MOD`): every other register,
`T`, the parameters and the host's later actions are unchanged; `FERR` changes only from 0 to the cause of this command; the
random source changes only for `NEW` with the flag; no output bytes. There is no memory (R31). -/
def Obligations.FrameWriters : Prop :=
  ∀ (i : Instr) (s t : State) (rd : VReg), i.dest = some rd → exec i s = .next t →
    (∀ r, r ≠ rd → t.read r = s.read r) ∧ t.t = s.t ∧ t.cfg = s.cfg ∧ t.host = s.host ∧
    (t.ferr = s.ferr ∨ (s.ferr = none ∧ ∃ c, t.ferr = some c ∧ t.lastCode = some c.code)) ∧
    (i.draws = false → t.rbit = s.rbit) ∧ ∃ r, t.out = r :: s.out ∧ r.dout = []

/-- `EQ`, `LT`, `ISNEG`, `ISODD`: every register, the parameters, the random source and the host's later actions are unchanged;
`FERR` changes only from 0 to the cause of this command; `T` is unchanged when the command fails; no output bytes. -/
def Obligations.FramePredicates : Prop :=
  ∀ (i : Instr) (s t : State), i.writesT = true → exec i s = .next t →
    t.regs = s.regs ∧ t.cfg = s.cfg ∧ t.host = s.host ∧ t.rbit = s.rbit ∧
    (t.ferr = s.ferr ∨ (s.ferr = none ∧ ∃ c, t.ferr = some c ∧ t.lastCode = some c.code)) ∧
    (t.lastCode ≠ some 0 → t.t = s.t) ∧ ∃ r, t.out = r :: s.out ∧ r.dout = []

/-- `NOP`, `CLRERR`, `RDBITS`, `TODEC`: every register, `T`, the parameters, the random source and the host's later actions are
unchanged; `FERR` changes only from 0 to the cause of this command, but for `CLRERR`, which clears it. -/
def Obligations.FrameReporting : Prop :=
  ∀ (i : Instr) (s t : State), i.dest = none → i.writesT = false → exec i s = .next t →
    t.regs = s.regs ∧ t.t = s.t ∧ t.cfg = s.cfg ∧ t.host = s.host ∧ t.rbit = s.rbit ∧
    (i ≠ .clrerr → t.ferr = s.ferr ∨ (s.ferr = none ∧ ∃ c, t.ferr = some c ∧ t.lastCode = some c.code)) ∧
    (i = .clrerr → t.ferr = none) ∧ ∃ r, t.out = r :: s.out

/-! ### The whole machine -/

/-- R28: once set, `FERR` keeps its value until `CLRERR` or reset; from 0 it takes only the cause of the command that failed. -/
def Obligations.FerrSticky : Prop :=
  ∀ s t : State, step s = .next t →
    (∀ c, s.ferr = some c → t.ferr = some c ∨
      (t.ferr = none ∧ ((∃ rest, s.host = .reset :: rest) ∨
        ∃ w payload rest, s.host = .command w payload :: rest ∧ decode w = .ok .clrerr))) ∧
    (s.ferr = none → t.ferr = none ∨ ∃ c, t.ferr = some c ∧ t.lastCode = some c.code)

/-- R27: `T` changes only by a successful `EQ`, `LT`, `ISNEG` or `ISODD`, or to 0 by reset. -/
def Obligations.TWrittenByPredicates : Prop :=
  ∀ s t : State, step s = .next t → t.t ≠ s.t →
    (t.t = false ∧ ∃ rest, s.host = .reset :: rest) ∨
    ∃ w payload rest i, s.host = .command w payload :: rest ∧ decode w = .ok i ∧ i.writesT = true ∧
      t.lastCode = some 0

/-- R34, R23: what a successful command finds and leaves in the register it names: `NEW` leaves a builder, `SETBIT` keeps one,
`SEAL` makes it a value of the same bits, `LDBITS` and the arithmetic commands leave a canonical value; every source was a value
and, unless it is the destination, still holds it. -/
def Obligations.RegisterTransitions : Prop :=
  ∀ (i : Instr) (s t : State), s.Inv → exec i s = .next t → t.lastCode = some 0 →
    (∀ rd rnd imm, i = .new rd rnd imm → ∃ x, t.read rd = .build x) ∧
    (∀ rd imm, i = .setbit rd imm → ∃ x y, s.read rd = .build x ∧ t.read rd = .build y) ∧
    (∀ rd, i = .sealv rd → ∃ x, s.read rd = .build x ∧ t.read rd = .value x) ∧
    (∀ rd, i.dest = some rd → i.builderSource = none → (∀ rnd imm, i ≠ .new rd rnd imm) →
      ∃ y, t.read rd = .value y ∧ Canonical s.cfg.wordWidth y) ∧
    (∀ r ∈ i.valueSources, ∃ x, s.read r = .value x ∧ (i.dest ≠ some r → t.read r = .value x))

/-- R196, R198: every command word, legal or not, completes, given that the host keeps its payload duty (R52) and the source
answers the draws. -/
def Obligations.EveryCommandCompletes : Prop :=
  ∀ (w : CmdWord) (s : State),
    (∀ i, decode w = .ok i → i.payloadKept s.din ∧ i.drawsAnswered s) → ∃ t, runWord w s = .next t

/-- R47: a step sees nothing of what the host does later, and leaves it for later. -/
def Obligations.LaterCommandsUnseen : Prop :=
  ∀ (s t : State) (a : HostAction) (later other : List HostAction),
    step (s.setHost (a :: later)) = .next t →
      t.host = later ∧ step (s.setHost (a :: other)) = .next (t.setHost other)

/-- R29, R199: a run over a list of host actions ends with the list used up and one response for each command in it. -/
def Obligations.OneResponsePerCommand : Prop :=
  ∀ (acts : List HostAction) (s t : State),
    Host.Core.run Sys2Proof.core acts.length (s.setHost acts) = .next t →
      t.host = [] ∧ t.cfg = s.cfg ∧ t.out.length = s.out.length + acts.countP HostAction.isCommand ∧
      t.out.drop (acts.countP HostAction.isCommand) = s.out
end

