-- ==== Sys2Proof/Laws/Decode.lean ====
section
/-! SUPPORT. Fields and words are the same information (R56). -/

namespace Sys2Proof

theorem getLsbD_place {n : Nat} (x : BitVec n) (lo i : Nat) :
    (place x lo).getLsbD i = (decide (i < 64) && decide (lo ≤ i) && x.getLsbD (i - lo)) := by
  simp only [place, BitVec.getLsbD_shiftLeft, BitVec.getLsbD_setWidth]
  by_cases h : i < 64 <;> by_cases h' : lo ≤ i <;> simp [h, h', Nat.not_lt.mpr]
  omega

/-- The fields of a packed word are the ones packed. -/
theorem unpack_pack (f : Fields) : unpack (pack f) = f := by
  obtain ⟨a, b, c, d, e, g, h⟩ := f
  simp only [unpack, pack, Fields.mk.injEq]
  refine ⟨?_, ?_, ?_, ?_, ?_, ?_, ?_⟩ <;>
  · ext i hi
    simp only [BitVec.getElem_extractLsb', BitVec.getLsbD_or, getLsbD_place]
    interval_cases i <;> simp

/-- A word is the packing of its fields. -/
theorem pack_unpack (w : CmdWord) : pack (unpack w) = w := by
  refine BitVec.eq_of_getLsbD_eq fun i hi => ?_
  simp only [unpack, pack, BitVec.getLsbD_or, getLsbD_place, BitVec.getLsbD_extractLsb']
  interval_cases i <;> simp

@[simp] theorem regOf_regField (r : VReg) : regOf (regField r) = r := rfl

@[simp] theorem regField_regOf (r : BitVec 4) : regField (regOf r) = r := rfl

/-- Decoding goes through the fields. -/
theorem decode_pack (f : Fields) : decode (pack f) = decodeFields f := by rw [decode, unpack_pack]

end Sys2Proof
end

