-- ==== Sys2Proof/Laws/State.lean ====
section
/-! SUPPORT. One lemma per field per update of the state, so that no proof unfolds a record update. -/

namespace Sys2Proof.Machine

variable (s : State)

@[simp] theorem State.write_cfg (i : VReg) (r : Reg) : (s.write i r).cfg = s.cfg := rfl
@[simp] theorem State.write_regs (i : VReg) (r : Reg) : (s.write i r).regs = s.regs.set i.val r := rfl
@[simp] theorem State.write_t (i : VReg) (r : Reg) : (s.write i r).t = s.t := rfl
@[simp] theorem State.write_ferr (i : VReg) (r : Reg) : (s.write i r).ferr = s.ferr := rfl
@[simp] theorem State.write_host (i : VReg) (r : Reg) : (s.write i r).host = s.host := rfl
@[simp] theorem State.write_din (i : VReg) (r : Reg) : (s.write i r).din = s.din := rfl
@[simp] theorem State.write_out (i : VReg) (r : Reg) : (s.write i r).out = s.out := rfl
@[simp] theorem State.write_rbit (i : VReg) (r : Reg) : (s.write i r).rbit = s.rbit := rfl

@[simp] theorem State.setT_cfg (b : Bool) : (s.setT b).cfg = s.cfg := rfl
@[simp] theorem State.setT_regs (b : Bool) : (s.setT b).regs = s.regs := rfl
@[simp] theorem State.setT_t (b : Bool) : (s.setT b).t = b := rfl
@[simp] theorem State.setT_ferr (b : Bool) : (s.setT b).ferr = s.ferr := rfl
@[simp] theorem State.setT_host (b : Bool) : (s.setT b).host = s.host := rfl
@[simp] theorem State.setT_din (b : Bool) : (s.setT b).din = s.din := rfl
@[simp] theorem State.setT_out (b : Bool) : (s.setT b).out = s.out := rfl
@[simp] theorem State.setT_rbit (b : Bool) : (s.setT b).rbit = s.rbit := rfl

@[simp] theorem State.noteFault_cfg (c : Cause) : (s.noteFault c).cfg = s.cfg := rfl
@[simp] theorem State.noteFault_regs (c : Cause) : (s.noteFault c).regs = s.regs := rfl
@[simp] theorem State.noteFault_t (c : Cause) : (s.noteFault c).t = s.t := rfl
@[simp] theorem State.noteFault_host (c : Cause) : (s.noteFault c).host = s.host := rfl
@[simp] theorem State.noteFault_din (c : Cause) : (s.noteFault c).din = s.din := rfl
@[simp] theorem State.noteFault_out (c : Cause) : (s.noteFault c).out = s.out := rfl
@[simp] theorem State.noteFault_rbit (c : Cause) : (s.noteFault c).rbit = s.rbit := rfl

@[simp] theorem State.clearFerr_cfg : (s.clearFerr).cfg = s.cfg := rfl
@[simp] theorem State.clearFerr_regs : (s.clearFerr).regs = s.regs := rfl
@[simp] theorem State.clearFerr_t : (s.clearFerr).t = s.t := rfl
@[simp] theorem State.clearFerr_ferr : (s.clearFerr).ferr = none := rfl
@[simp] theorem State.clearFerr_host : (s.clearFerr).host = s.host := rfl
@[simp] theorem State.clearFerr_din : (s.clearFerr).din = s.din := rfl
@[simp] theorem State.clearFerr_out : (s.clearFerr).out = s.out := rfl
@[simp] theorem State.clearFerr_rbit : (s.clearFerr).rbit = s.rbit := rfl

@[simp] theorem State.respond_cfg (k : BitVec 4) (d : List Byte) : (s.respond k d).cfg = s.cfg := rfl
@[simp] theorem State.respond_regs (k : BitVec 4) (d : List Byte) : (s.respond k d).regs = s.regs := rfl
@[simp] theorem State.respond_t (k : BitVec 4) (d : List Byte) : (s.respond k d).t = s.t := rfl
@[simp] theorem State.respond_ferr (k : BitVec 4) (d : List Byte) : (s.respond k d).ferr = s.ferr := rfl
@[simp] theorem State.respond_host (k : BitVec 4) (d : List Byte) : (s.respond k d).host = s.host := rfl
@[simp] theorem State.respond_din (k : BitVec 4) (d : List Byte) : (s.respond k d).din = [] := rfl
@[simp] theorem State.respond_out (k : BitVec 4) (d : List Byte) : (s.respond k d).out = { word := responseWord k s.t s.ferrField, dout := d } :: s.out := rfl
@[simp] theorem State.respond_rbit (k : BitVec 4) (d : List Byte) : (s.respond k d).rbit = s.rbit := rfl

@[simp] theorem State.succeed_cfg (d : List Byte) : (s.succeed d).cfg = s.cfg := rfl
@[simp] theorem State.succeed_regs (d : List Byte) : (s.succeed d).regs = s.regs := rfl
@[simp] theorem State.succeed_t (d : List Byte) : (s.succeed d).t = s.t := rfl
@[simp] theorem State.succeed_ferr (d : List Byte) : (s.succeed d).ferr = s.ferr := rfl
@[simp] theorem State.succeed_host (d : List Byte) : (s.succeed d).host = s.host := rfl
@[simp] theorem State.succeed_din (d : List Byte) : (s.succeed d).din = [] := rfl
@[simp] theorem State.succeed_out (d : List Byte) : (s.succeed d).out = { word := responseWord 0 s.t s.ferrField, dout := d } :: s.out := rfl
@[simp] theorem State.succeed_rbit (d : List Byte) : (s.succeed d).rbit = s.rbit := rfl

@[simp] theorem State.raise_cfg (c : Cause) : (s.raise c).cfg = s.cfg := rfl
@[simp] theorem State.raise_regs (c : Cause) : (s.raise c).regs = s.regs := rfl
@[simp] theorem State.raise_t (c : Cause) : (s.raise c).t = s.t := rfl
@[simp] theorem State.raise_ferr (c : Cause) : (s.raise c).ferr = (s.noteFault c).ferr := rfl
@[simp] theorem State.raise_host (c : Cause) : (s.raise c).host = s.host := rfl
@[simp] theorem State.raise_din (c : Cause) : (s.raise c).din = [] := rfl
@[simp] theorem State.raise_out (c : Cause) : (s.raise c).out = { word := responseWord c.code s.t (s.noteFault c).ferrField, dout := [] } :: s.out := rfl
@[simp] theorem State.raise_rbit (c : Cause) : (s.raise c).rbit = s.rbit := rfl

@[simp] theorem State.setRbit_cfg (r : RandomSource) : (s.setRbit r).cfg = s.cfg := rfl
@[simp] theorem State.setRbit_regs (r : RandomSource) : (s.setRbit r).regs = s.regs := rfl
@[simp] theorem State.setRbit_t (r : RandomSource) : (s.setRbit r).t = s.t := rfl
@[simp] theorem State.setRbit_ferr (r : RandomSource) : (s.setRbit r).ferr = s.ferr := rfl
@[simp] theorem State.setRbit_host (r : RandomSource) : (s.setRbit r).host = s.host := rfl
@[simp] theorem State.setRbit_din (r : RandomSource) : (s.setRbit r).din = s.din := rfl
@[simp] theorem State.setRbit_out (r : RandomSource) : (s.setRbit r).out = s.out := rfl
@[simp] theorem State.setRbit_rbit (r : RandomSource) : (s.setRbit r).rbit = r := rfl

@[simp] theorem State.setHost_cfg (h : List HostAction) : (s.setHost h).cfg = s.cfg := rfl
@[simp] theorem State.setHost_regs (h : List HostAction) : (s.setHost h).regs = s.regs := rfl
@[simp] theorem State.setHost_t (h : List HostAction) : (s.setHost h).t = s.t := rfl
@[simp] theorem State.setHost_ferr (h : List HostAction) : (s.setHost h).ferr = s.ferr := rfl
@[simp] theorem State.setHost_host (h : List HostAction) : (s.setHost h).host = h := rfl
@[simp] theorem State.setHost_din (h : List HostAction) : (s.setHost h).din = s.din := rfl
@[simp] theorem State.setHost_out (h : List HostAction) : (s.setHost h).out = s.out := rfl
@[simp] theorem State.setHost_rbit (h : List HostAction) : (s.setHost h).rbit = s.rbit := rfl

@[simp] theorem State.setDin_cfg (d : List Byte) : (s.setDin d).cfg = s.cfg := rfl
@[simp] theorem State.setDin_regs (d : List Byte) : (s.setDin d).regs = s.regs := rfl
@[simp] theorem State.setDin_t (d : List Byte) : (s.setDin d).t = s.t := rfl
@[simp] theorem State.setDin_ferr (d : List Byte) : (s.setDin d).ferr = s.ferr := rfl
@[simp] theorem State.setDin_host (d : List Byte) : (s.setDin d).host = s.host := rfl
@[simp] theorem State.setDin_din (d : List Byte) : (s.setDin d).din = d := rfl
@[simp] theorem State.setDin_out (d : List Byte) : (s.setDin d).out = s.out := rfl
@[simp] theorem State.setDin_rbit (d : List Byte) : (s.setDin d).rbit = s.rbit := rfl

@[simp] theorem State.resetBlock_cfg : (s.resetBlock).cfg = s.cfg := rfl
@[simp] theorem State.resetBlock_regs : (s.resetBlock).regs = Vector.replicate 16 Reg.empty := rfl
@[simp] theorem State.resetBlock_t : (s.resetBlock).t = false := rfl
@[simp] theorem State.resetBlock_ferr : (s.resetBlock).ferr = none := rfl
@[simp] theorem State.resetBlock_host : (s.resetBlock).host = s.host := rfl
@[simp] theorem State.resetBlock_din : (s.resetBlock).din = [] := rfl
@[simp] theorem State.resetBlock_out : (s.resetBlock).out = s.out := rfl
@[simp] theorem State.resetBlock_rbit : (s.resetBlock).rbit = s.rbit := rfl

theorem State.noteFault_ferr_of_none {s : State} (h : s.ferr = none) (c : Cause) :
    (s.noteFault c).ferr = some c := by simp [State.noteFault, h]

theorem State.noteFault_ferr_of_some {s : State} {c0 : Cause} (h : s.ferr = some c0) (c : Cause) :
    (s.noteFault c).ferr = some c0 := by simp [State.noteFault, h]

/-- `FERR` after a fault: the first cause stays (R28). -/
theorem State.noteFault_ferr_cases (c : Cause) :
    (s.ferr = none ∧ (s.noteFault c).ferr = some c) ∨ (s.noteFault c).ferr = s.ferr := by
  cases h : s.ferr with
  | none => exact .inl ⟨rfl, s.noteFault_ferr_of_none h c⟩
  | some c0 => exact .inr (s.noteFault_ferr_of_some h c)

/-- The field `FERR` depends on `ferr` alone. -/
theorem State.ferrField_congr {s t : State} (h : s.ferr = t.ferr) : s.ferrField = t.ferrField := by
  simp [State.ferrField, h]

@[simp] theorem State.write_ferrField (i : VReg) (r : Reg) : (s.write i r).ferrField = s.ferrField := rfl
@[simp] theorem State.setT_ferrField (b : Bool) : (s.setT b).ferrField = s.ferrField := rfl
@[simp] theorem State.setRbit_ferrField (r : RandomSource) : (s.setRbit r).ferrField = s.ferrField := rfl
@[simp] theorem State.clearFerr_ferrField : s.clearFerr.ferrField = 0 := rfl

/-- Reading a register after a write: the one written, and the others as before. -/
theorem State.read_write (i j : VReg) (r : Reg) : (s.write i r).read j = if i = j then r else s.read j := by
  simp [State.read, Vector.getElem_set, Fin.ext_iff]

@[simp] theorem State.read_write_self (i : VReg) (r : Reg) : (s.write i r).read i = r := by simp [State.read_write]

theorem State.read_write_other {i j : VReg} (h : i ≠ j) (r : Reg) : (s.write i r).read j = s.read j := by
  simp [State.read_write, h]

@[simp] theorem State.read_setT (b : Bool) (j : VReg) : (s.setT b).read j = s.read j := rfl
@[simp] theorem State.read_noteFault (c : Cause) (j : VReg) : (s.noteFault c).read j = s.read j := rfl
@[simp] theorem State.read_clearFerr (j : VReg) : s.clearFerr.read j = s.read j := rfl
@[simp] theorem State.read_respond (k : BitVec 4) (d : List Byte) (j : VReg) : (s.respond k d).read j = s.read j := rfl
@[simp] theorem State.read_succeed (d : List Byte) (j : VReg) : (s.succeed d).read j = s.read j := rfl
@[simp] theorem State.read_raise (c : Cause) (j : VReg) : (s.raise c).read j = s.read j := rfl
@[simp] theorem State.read_setRbit (r : RandomSource) (j : VReg) : (s.setRbit r).read j = s.read j := rfl
@[simp] theorem State.read_setHost (h : List HostAction) (j : VReg) : (s.setHost h).read j = s.read j := rfl
@[simp] theorem State.read_setDin (d : List Byte) (j : VReg) : (s.setDin d).read j = s.read j := rfl
@[simp] theorem State.read_resetBlock (j : VReg) : s.resetBlock.read j = .empty := by
  simp [State.read]
@[simp] theorem State.read_reset (j : VReg) : State.reset.read j = .empty := by
  simp [State.read, State.reset]

/-- Registers that read alike everywhere are the same register file. -/
theorem State.regs_ext {s t : State} (h : ∀ i : VReg, s.read i = t.read i) : s.regs = t.regs := by
  ext i hi
  exact h ⟨i, hi⟩

end Sys2Proof.Machine
end

