-- ==== Sys2Proof/Laws/Sequence.lean ====
section
/-! SUPPORT. Laws of bit sequences: `uval`, `sval` and `bitsOf` under the ways sequences are built. -/

namespace Sys2Proof.Machine

theorem uval_foldl (x : Bits) (n : Nat) :
    x.foldl (fun n b => 2 * n + b.toNat) n = n * 2 ^ x.length + uval x := by
  induction x generalizing n with
  | nil => simp [uval]
  | cons b x ih =>
    have h0 : uval (b :: x) = (2 * 0 + b.toNat) * 2 ^ x.length + uval x := ih _
    rw [List.foldl_cons, ih, h0, List.length_cons, pow_succ]
    ring

@[simp] theorem uval_nil : uval [] = 0 := rfl

@[simp] theorem uval_cons (b : Bool) (x : Bits) : uval (b :: x) = b.toNat * 2 ^ x.length + uval x := by
  have h : uval (b :: x) = (2 * 0 + b.toNat) * 2 ^ x.length + uval x := uval_foldl x _
  simpa using h

theorem uval_append (x y : Bits) : uval (x ++ y) = uval x * 2 ^ y.length + uval y := by
  unfold uval
  rw [List.foldl_append, uval_foldl]
  rfl

theorem uval_lt (x : Bits) : uval x < 2 ^ x.length := by
  induction x with
  | nil => simp
  | cons b x ih =>
    have hb : b.toNat ≤ 1 := Bool.toNat_le b
    have : b.toNat * 2 ^ x.length ≤ 1 * 2 ^ x.length := Nat.mul_le_mul_right _ hb
    rw [uval_cons, List.length_cons, pow_succ]
    omega

@[simp] theorem length_rep (c : Bool) (k : Nat) : (rep c k).length = k := by simp [rep]

@[simp] theorem uval_rep_false (k : Nat) : uval (rep false k) = 0 := by
  induction k with
  | zero => rfl
  | succ k ih => simpa [rep, List.replicate_succ] using ih

theorem uval_rep_true (k : Nat) : uval (rep true k) + 1 = 2 ^ k := by
  induction k with
  | zero => rfl
  | succ k ih =>
    have h : uval (rep true (k + 1)) = 2 ^ k + uval (rep true k) := by
      simp [rep, List.replicate_succ]
    rw [h, pow_succ]
    omega

@[simp] theorem length_natBits (L v : Nat) : (natBits L v).length = L := by
  induction L with
  | zero => rfl
  | succ L ih => simp [natBits, ih]

theorem uval_natBits (L v : Nat) : uval (natBits L v) = v % 2 ^ L := by
  induction L with
  | zero => simp [natBits, Nat.mod_one]
  | succ L ih =>
    rw [natBits, uval_cons, ih, length_natBits, Nat.toNat_testBit, Nat.mod_pow_succ]
    ring

@[simp] theorem length_bitsOf (L : Nat) (v : Int) : (bitsOf L v).length = L := by simp [bitsOf]

theorem uval_bitsOf (L : Nat) (v : Int) : (uval (bitsOf L v) : Int) = v % 2 ^ L := by
  have hpos : (0 : Int) < 2 ^ L := by positivity
  have hlt : (v % 2 ^ L).toNat < 2 ^ L := by
    have := Int.emod_lt_of_pos v hpos
    have := Int.emod_nonneg v hpos.ne'
    zify
    omega
  rw [bitsOf, uval_natBits, Nat.mod_eq_of_lt hlt]
  exact Int.toNat_of_nonneg (Int.emod_nonneg v hpos.ne')

/-- Sequences of one length are told apart by their unsigned value. -/
theorem uval_inj {x y : Bits} (hl : x.length = y.length) (hu : uval x = uval y) : x = y := by
  induction x generalizing y with
  | nil => exact (List.length_eq_zero_iff.mp hl.symm).symm
  | cons a x ih =>
    obtain _ | ⟨b, y⟩ := y
    · simp at hl
    · simp only [List.length_cons, Nat.add_right_cancel_iff] at hl
      have h1 := uval_lt x
      have h2 := uval_lt y
      rw [uval_cons, uval_cons, hl] at hu
      rw [hl] at h1
      have hab : a = b := by
        rcases a with _ | _ <;> rcases b with _ | _ <;> simp at hu ⊢ <;> omega
      subst hab
      rw [ih hl (by omega)]

theorem length_inv (x : Bits) : (inv x).length = x.length := by simp [inv]

theorem uval_inv (x : Bits) : uval (inv x) + uval x + 1 = 2 ^ x.length := by
  induction x with
  | nil => rfl
  | cons b x ih =>
    have h : uval (inv (b :: x)) = (!b).toNat * 2 ^ x.length + uval (inv x) := by
      simp [inv]
    rw [h, uval_cons, List.length_cons, pow_succ]
    rcases b with _ | _ <;> simp <;> omega

@[simp] theorem sign_cons (b : Bool) (x : Bits) : sign (b :: x) = b := rfl

/-- The signed value by the first bit and the rest (R10). -/
theorem sval_cons (b : Bool) (x : Bits) : sval (b :: x) = (uval x : Int) - b.toNat * 2 ^ x.length := by
  rcases b with _ | _
  · simp [sval]
  · simp [sval, pow_succ]
    ring

/-- One more copy of the sign bit in front changes no value (R16, "Sign-extension / widening"). -/
theorem sval_sign_cons {x : Bits} (hx : x ≠ []) : sval (sign x :: x) = sval x := by
  obtain _ | ⟨b, x⟩ := x
  · exact absurd rfl hx
  · rw [sign_cons, sval_cons, sval_cons]
    rcases b with _ | _
    · simp
    · simp [pow_succ]
      ring

/-- The range of a two's-complement number of its length. -/
theorem sval_range {x : Bits} (hx : x ≠ []) :
    -(2 ^ (x.length - 1) : Int) ≤ sval x ∧ sval x < 2 ^ (x.length - 1) := by
  obtain _ | ⟨b, x⟩ := x
  · exact absurd rfl hx
  · have h := uval_lt x
    have h' : (uval x : Int) < 2 ^ x.length := by exact_mod_cast h
    rw [sval_cons]
    rcases b with _ | _ <;> simp <;> omega

theorem sval_neg_iff {x : Bits} (hx : x ≠ []) : sval x < 0 ↔ sign x = true := by
  obtain _ | ⟨b, x⟩ := x
  · exact absurd rfl hx
  · have h' : (uval x : Int) < 2 ^ x.length := by exact_mod_cast uval_lt x
    rw [sval_cons, sign_cons]
    rcases b with _ | _
    · simp
    · simp; omega

/-- Sequences of one length are told apart by their signed value. -/
theorem sval_inj {x y : Bits} (hl : x.length = y.length) (hs : sval x = sval y) : x = y := by
  obtain _ | ⟨a, x⟩ := x
  · exact (List.length_eq_zero_iff.mp hl.symm).symm
  · obtain _ | ⟨b, y⟩ := y
    · simp at hl
    · have hab : a = b := by
        have ha := sval_neg_iff (x := a :: x) (by simp)
        have hb := sval_neg_iff (x := b :: y) (by simp)
        rw [hs, hb] at ha
        rw [sign_cons, sign_cons] at ha
        exact (Bool.eq_iff_iff.mpr ha).symm
      subst hab
      simp only [List.length_cons, Nat.add_right_cancel_iff] at hl
      rw [sval_cons, sval_cons, hl] at hs
      rw [uval_inj hl (by omega)]

end Sys2Proof.Machine
end

