-- ==== Sys2Proof/Laws/Units.lean ====
section
/-! SUPPORT. What the arithmetic units give in shape: a positive whole number of words (R22, R43). -/

namespace Sys2Proof.Machine

/-- A non-empty whole number of words (R12). -/
abbrev Aligned (W : Nat) (x : Bits) : Prop := x ≠ [] ∧ W ∣ x.length

theorem aligned_zeroWord {W : Nat} (hW : 0 < W) : Aligned W (zeroWord W) := by
  refine ⟨?_, by simp [zeroWord]⟩
  rw [← List.length_pos_iff]
  simpa [zeroWord] using hW

theorem length_widen (x : Bits) (L : Nat) : (widen x L).length = L - x.length + x.length := by
  simp [widen]

theorem widen_ne_nil {x : Bits} (hx : x ≠ []) (L : Nat) : widen x L ≠ [] := by simp [widen, hx]

theorem sign_widen (x : Bits) (L : Nat) : sign (widen x L) = sign x := by
  cases h : L - x.length with
  | zero => simp [widen, h, rep]
  | succ k => simp [widen, h, rep, List.replicate_succ, sign]

theorem length_compact (W : Nat) (x : Bits) :
    (compact W x).length = W - (keptBits x).length % W + (keptBits x).length := by
  simp [compact]

/-- R77: `compact` gives a positive whole number of words, whatever it is given. -/
theorem aligned_compact {W : Nat} (hW : 0 < W) (x : Bits) : Aligned W (compact W x) := by
  have hlt := Nat.mod_lt (keptBits x).length hW
  constructor
  · rw [← List.length_pos_iff, length_compact]
    omega
  · rw [length_compact]
    refine ⟨(keptBits x).length / W + 1, ?_⟩
    have := Nat.div_add_mod (keptBits x).length W
    rw [mul_add, mul_one]
    omega

theorem length_negate (x : Bits) : (negate x).length = x.length := by simp [negate]

theorem negate_ne_nil {x : Bits} (hx : x ≠ []) : negate x ≠ [] := by
  rw [← List.length_pos_iff, length_negate]
  exact List.length_pos_iff.mpr hx

theorem aligned_addseq {W : Nat} (hW : 0 < W) (a b : Bits) : Aligned W (addseq W a b) := aligned_compact hW _

theorem aligned_subseq {W : Nat} (hW : 0 < W) (a b : Bits) : Aligned W (subseq W a b) := aligned_addseq hW _ _

theorem aligned_mulLoop {W : Nat} (hW : 0 < W) (bits acc sh : Bits) (h : Aligned W acc) :
    Aligned W (mulLoop W bits acc sh) := by
  induction bits generalizing acc sh with
  | nil => exact h
  | cons c rest ih =>
    refine ih _ _ ?_
    split
    · exact aligned_addseq hW _ _
    · exact h

theorem aligned_mulseq {W : Nat} (hW : 0 < W) (a b : Bits) : Aligned W (mulseq W a b) := by
  unfold mulseq
  split
  · exact aligned_zeroWord hW
  · split <;> exact aligned_mulLoop hW _ _ _ (aligned_zeroWord hW)

/-- What `divseq` answers: DivisionByZero, or a positive whole number of words. -/
theorem divseq_cases {W : Nat} (hW : 0 < W) (a b : Bits) :
    divseq W a b = .error .divisionByZero ∨ ∃ q, divseq W a b = .ok q ∧ Aligned W q := by
  unfold divseq
  split
  · exact .inl rfl
  · split
    · exact .inr ⟨_, rfl, aligned_zeroWord hW⟩
    · exact .inr ⟨_, rfl, aligned_compact hW _⟩

/-- What `modseq` answers: DivisionByZero, or a positive whole number of words. -/
theorem modseq_cases {W : Nat} (hW : 0 < W) (a b : Bits) :
    modseq W a b = .error .divisionByZero ∨ ∃ r, modseq W a b = .ok r ∧ Aligned W r := by
  unfold modseq
  rcases divseq_cases hW a b with h | ⟨q, h, -⟩
  · exact .inl (by rw [h])
  · exact .inr ⟨_, by rw [h], aligned_subseq hW _ _⟩

/-- `modseq` and `divseq` fail on the same operands (R127). -/
theorem modseq_error_iff (W : Nat) (a b : Bits) (c : Cause) :
    modseq W a b = .error c ↔ divseq W a b = .error c := by
  unfold modseq
  split <;> simp_all

end Sys2Proof.Machine
end

