-- ==== Sys2Proof/Laws/Ops.lean ====
section
/-! SUPPORT. One lemma for each shared operation that says everything it can do. -/

namespace Sys2Proof.Machine

/-! ### Register checks (R172) -/

theorem needValue_ok_iff {s : State} {i : VReg} {x : Bits} : needValue s i = .ok x ↔ s.read i = .value x := by
  unfold needValue
  split <;> simp_all

theorem needValue_of_value {s : State} {i : VReg} {x : Bits} (h : s.read i = .value x) : needValue s i = .ok x :=
  needValue_ok_iff.mpr h

theorem needValue_of_empty {s : State} {i : VReg} (h : s.read i = .empty) : needValue s i = .error .emptyRegister := by
  simp [needValue, h]

theorem needValue_of_build {s : State} {i : VReg} {x : Bits} (h : s.read i = .build x) :
    needValue s i = .error .stateFault := by
  simp [needValue, h]

theorem needBuild_ok_iff {s : State} {i : VReg} {x : Bits} : needBuild s i = .ok x ↔ s.read i = .build x := by
  unfold needBuild
  split <;> simp_all

theorem needBuild_of_build {s : State} {i : VReg} {x : Bits} (h : s.read i = .build x) : needBuild s i = .ok x :=
  needBuild_ok_iff.mpr h

theorem needBuild_of_empty {s : State} {i : VReg} (h : s.read i = .empty) : needBuild s i = .error .emptyRegister := by
  simp [needBuild, h]

theorem needBuild_of_value {s : State} {i : VReg} {x : Bits} (h : s.read i = .value x) :
    needBuild s i = .error .stateFault := by
  simp [needBuild, h]

/-- A failed register check is EmptyRegister or StateFault (R169, R172). -/
theorem needValue_error {s : State} {i : VReg} {c : Cause} (h : needValue s i = .error c) :
    (c = .emptyRegister ∧ s.read i = .empty) ∨ (c = .stateFault ∧ ∃ x, s.read i = .build x) := by
  unfold needValue at h
  split at h <;> simp_all

/-- A failed builder check is EmptyRegister or StateFault (R169, R172). -/
theorem needBuild_error {s : State} {i : VReg} {c : Cause} (h : needBuild s i = .error c) :
    (c = .emptyRegister ∧ s.read i = .empty) ∨ (c = .stateFault ∧ ∃ x, s.read i = .value x) := by
  unfold needBuild at h
  split at h <;> simp_all

/-! ### The shapes of the commands -/

/-- A store either writes the value and succeeds, or fails on capacity (R176). -/
theorem storeValue_cases (s : State) (rd : VReg) (y : Bits) :
    (capOk s.cfg y = true ∧ storeValue s rd y = .next ((s.write rd (.value y)).succeed [])) ∨
      (capOk s.cfg y = false ∧ storeValue s rd y = .next (s.raise .capacityFault)) := by
  cases h : capOk s.cfg y <;> simp [storeValue, h]

/-- Format R3: a fault, or both values read, the operation's result within capacity, and the write. -/
theorem arith_cases (op : Nat → Bits → Bits → Except Cause Bits) (rd rs1 rs2 : VReg) (s : State) :
    (∃ c, arith op rd rs1 rs2 s = .next (s.raise c)) ∨
      ∃ a b y, s.read rs1 = .value a ∧ s.read rs2 = .value b ∧ op s.cfg.wordWidth a b = .ok y ∧
        capOk s.cfg y = true ∧ arith op rd rs1 rs2 s = .next ((s.write rd (.value y)).succeed []) := by
  unfold arith
  cases h1 : needValue s rs1 with
  | error c => exact .inl ⟨c, rfl⟩
  | ok a =>
    cases h2 : needValue s rs2 with
    | error c => exact .inl ⟨c, rfl⟩
    | ok b =>
      cases h3 : op s.cfg.wordWidth a b with
      | error c => exact .inl ⟨c, by simp [h3]⟩
      | ok y =>
        simp only [h3]
        rcases storeValue_cases s rd y with ⟨hc, h⟩ | ⟨-, h⟩
        · exact .inr ⟨a, b, y, needValue_ok_iff.mp h1, needValue_ok_iff.mp h2, h3, hc, h⟩
        · exact .inl ⟨_, h⟩

/-- Format R3 with both sources VALUE. -/
theorem arith_of_values (op : Nat → Bits → Bits → Except Cause Bits) {rd rs1 rs2 : VReg} {s : State} {a b : Bits}
    (h1 : s.read rs1 = .value a) (h2 : s.read rs2 = .value b) :
    arith op rd rs1 rs2 s =
      match op s.cfg.wordWidth a b with
      | .error c => .next (s.raise c)
      | .ok y => storeValue s rd y := by
  cases h3 : op s.cfg.wordWidth a b <;> simp [arith, needValue_of_value h1, needValue_of_value h2, h3]

/-- Format R2: a fault, or both values read and `T` written. -/
theorem compareRegs_cases (p : Nat → Bits → Bits → Bool) (rs1 rs2 : VReg) (s : State) :
    (∃ c, compareRegs p rs1 rs2 s = .next (s.raise c)) ∨
      ∃ a b, s.read rs1 = .value a ∧ s.read rs2 = .value b ∧
        compareRegs p rs1 rs2 s = .next ((s.setT (p s.cfg.wordWidth a b)).succeed []) := by
  unfold compareRegs
  cases h1 : needValue s rs1 with
  | error c => exact .inl ⟨c, rfl⟩
  | ok a =>
    cases h2 : needValue s rs2 with
    | error c => exact .inl ⟨c, rfl⟩
    | ok b => exact .inr ⟨a, b, needValue_ok_iff.mp h1, needValue_ok_iff.mp h2, rfl⟩

/-- The one-operand predicates: a fault, or the value read and `T` written. -/
theorem testReg_cases (p : Bits → Bool) (rs1 : VReg) (s : State) :
    (∃ c, testReg p rs1 s = .next (s.raise c)) ∨
      ∃ x, s.read rs1 = .value x ∧ testReg p rs1 s = .next ((s.setT (p x)).succeed []) := by
  unfold testReg
  cases h1 : needValue s rs1 with
  | error c => exact .inl ⟨c, rfl⟩
  | ok x => exact .inr ⟨x, needValue_ok_iff.mp h1, rfl⟩

/-- The rendering commands: a fault, or the value read and its characters given. -/
theorem emitReg_cases (g : Bits → List Byte) (rs1 : VReg) (s : State) :
    (∃ c, emitReg g rs1 s = .next (s.raise c)) ∨
      ∃ x, s.read rs1 = .value x ∧ emitReg g rs1 s = .next (s.succeed (g x)) := by
  unfold emitReg
  cases h1 : needValue s rs1 with
  | error c => exact .inl ⟨c, rfl⟩
  | ok x => exact .inr ⟨x, needValue_ok_iff.mp h1, rfl⟩

/-! ### Draws (R50) -/

/-- One draw: the next recorded answer, or a free bit when the source is live, or no answer. -/
theorem RandomSource.draw_some {r r' : RandomSource} {b : Bool} (h : r.draw = some (b, r')) :
    r'.drawn = r.drawn + 1 ∧ r'.live = r.live ∧ r'.script = r.script.drop 1 := by
  unfold RandomSource.draw at h
  split at h
  · simp only [Option.some.injEq, Prod.mk.injEq] at h
    obtain ⟨-, rfl⟩ := h
    simp_all
  · split at h
    · simp only [Option.some.injEq, Prod.mk.injEq] at h
      obtain ⟨-, rfl⟩ := h
      simp_all
    · exact absurd h (by simp)

/-- `n` draws give `n` bits and leave a source `n` draws further on. -/
theorem RandomSource.drawBits_some {n : Nat} {r r' : RandomSource} {x : Bits} (h : r.drawBits n = some (x, r')) :
    x.length = n ∧ r'.drawn = r.drawn + n ∧ r'.live = r.live ∧ r'.script = r.script.drop n := by
  induction n generalizing r r' x with
  | zero =>
    simp only [RandomSource.drawBits, Option.some.injEq, Prod.mk.injEq] at h
    obtain ⟨rfl, rfl⟩ := h
    simp
  | succ n ih =>
    unfold RandomSource.drawBits at h
    split at h
    · exact absurd h (by simp)
    · next b r1 hd =>
      split at h
      · exact absurd h (by simp)
      · next y r2 hb =>
        simp only [Option.some.injEq, Prod.mk.injEq] at h
        obtain ⟨rfl, rfl⟩ := h
        obtain ⟨d1, d2, d3⟩ := RandomSource.draw_some hd
        obtain ⟨e1, e2, e3, e4⟩ := ih hb
        refine ⟨by simp [e1], by omega, by rw [e3, d2], ?_⟩
        rw [e4, d3, List.drop_drop, Nat.add_comm]

/-! ### Payloads (R82, R83) -/

theorem length_renderBits (x : Bits) : (renderBits x).length = x.length := by simp [renderBits]

/-- What `RDBITS` renders, `LDBITS` reads. -/
theorem parseBits_renderBits (x : Bits) : parseBits (renderBits x) = some x := by
  induction x with
  | nil => rfl
  | cons b x ih =>
    have h : parseBits (renderBits x) = some x := ih
    rcases b with _ | _ <;> simp [renderBits, parseBits] <;> simp [renderBits] at h <;> simp [h]

/-- `LDBITS` reads nothing else: a payload it accepts is the rendering of the bits it reads. -/
theorem parseBits_some {l : List Byte} {x : Bits} (h : parseBits l = some x) : l = renderBits x := by
  induction l generalizing x with
  | nil =>
    simp only [parseBits, Option.some.injEq] at h
    subst h
    rfl
  | cons b l ih =>
    unfold parseBits at h
    split at h
    · exact absurd h (by simp)
    · next y hy =>
      have hl := ih hy
      split at h
      · next hb =>
        simp only [Option.some.injEq] at h
        subst h
        simp [renderBits, hb] at hl ⊢
        exact hl
      · split at h
        · next hb =>
          simp only [Option.some.injEq] at h
          subst h
          simp [renderBits, hb] at hl ⊢
          exact hl
        · exact absurd h (by simp)

theorem one_le_allocWords (W : Nat) (imm : BitVec 32) : 1 ≤ allocWords W imm := le_max_left _ _

end Sys2Proof.Machine
end

