-- ==== Sys2Proof/Laws/Exec.lean ====
section
/-! SUPPORT. What executing a command can do, said once for all seventeen, and what a step is. -/

namespace Sys2Proof.Machine

/-- When a command answers a next state, it failed (R170), or it succeeded with one of five effects: none (`NOP`, `RDBITS`,
`TODEC`), `FERR` cleared, `T` written, one register written, or one register written with drawn bits. -/
theorem exec_cases {i : Instr} {s t : State} (h : exec i s = .next t) :
    (∃ c, t = s.raise c) ∨
    (i.dest = none ∧ i.writesT = false ∧ i ≠ .clrerr ∧ ∃ d, t = s.succeed d) ∨
    (i = .clrerr ∧ t = s.clearFerr.succeed []) ∨
    (i.writesT = true ∧ ∃ b, t = (s.setT b).succeed []) ∨
    (∃ rd r, i.dest = some rd ∧ i.draws = false ∧ t = (s.write rd r).succeed []) ∨
    (∃ rd imm x src, i = .new rd true imm ∧
      s.rbit.drawBits (allocWords s.cfg.wordWidth imm * s.cfg.wordWidth) = some (x, src) ∧
      t = ((s.setRbit src).write rd (.build x)).succeed []) := by
  cases i with
  | nop =>
    cases h
    exact .inr (.inl ⟨rfl, rfl, by simp, _, rfl⟩)
  | clrerr =>
    cases h
    exact .inr (.inr (.inl ⟨rfl, rfl⟩))
  | new rd rnd imm =>
    simp only [exec, execNew] at h
    split at h
    · split at h
      · next hr =>
        subst hr
        split at h
        · exact absurd h (by simp)
        · next x src hx =>
          cases h
          exact .inr (.inr (.inr (.inr (.inr ⟨rd, imm, x, src, rfl, hx, rfl⟩))))
      · next hr =>
        cases h
        exact .inr (.inr (.inr (.inr (.inl ⟨rd, _, rfl, by simpa [Instr.draws] using hr, rfl⟩))))
    · cases h
      exact .inl ⟨_, rfl⟩
  | setbit rd imm =>
    simp only [exec, execSetbit] at h
    split at h
    · cases h
      exact .inl ⟨_, rfl⟩
    · split at h <;> cases h
      · exact .inr (.inr (.inr (.inr (.inl ⟨rd, _, rfl, rfl, rfl⟩))))
      · exact .inl ⟨_, rfl⟩
  | sealv rd =>
    simp only [exec, execSeal] at h
    split at h <;> cases h
    · exact .inl ⟨_, rfl⟩
    · exact .inr (.inr (.inr (.inr (.inl ⟨rd, _, rfl, rfl, rfl⟩))))
  | ldbits rd imm =>
    simp only [exec, execLdbits] at h
    split at h
    · split at h
      · cases h
        exact .inl ⟨_, rfl⟩
      · split at h
        · cases h
          exact .inl ⟨_, rfl⟩
        · next x _ =>
          rcases storeValue_cases s rd (compact s.cfg.wordWidth x) with ⟨-, e⟩ | ⟨-, e⟩ <;> rw [e] at h <;> cases h
          · exact .inr (.inr (.inr (.inr (.inl ⟨rd, _, rfl, rfl, rfl⟩))))
          · exact .inl ⟨_, rfl⟩
    · exact absurd h (by simp)
  | add rd rs1 rs2 | sub rd rs1 rs2 | mul rd rs1 rs2 | div rd rs1 rs2 | mod rd rs1 rs2 =>
    simp only [exec, execAdd, execSub, execMul, execDiv, execMod] at h
    rcases arith_cases _ rd rs1 rs2 s with ⟨c, e⟩ | ⟨a, b, y, -, -, -, -, e⟩ <;> rw [e] at h <;> cases h
    · exact .inl ⟨c, rfl⟩
    · exact .inr (.inr (.inr (.inr (.inl ⟨rd, _, rfl, rfl, rfl⟩))))
  | eq rs1 rs2 | lt rs1 rs2 =>
    simp only [exec, execEq, execLt] at h
    rcases compareRegs_cases _ rs1 rs2 s with ⟨c, e⟩ | ⟨a, b, -, -, e⟩ <;> rw [e] at h <;> cases h
    · exact .inl ⟨c, rfl⟩
    · exact .inr (.inr (.inr (.inl ⟨rfl, _, rfl⟩)))
  | isneg rs1 | isodd rs1 =>
    simp only [exec, execIsneg, execIsodd] at h
    rcases testReg_cases _ rs1 s with ⟨c, e⟩ | ⟨x, -, e⟩ <;> rw [e] at h <;> cases h
    · exact .inl ⟨c, rfl⟩
    · exact .inr (.inr (.inr (.inl ⟨rfl, _, rfl⟩)))
  | rdbits rs1 | todec rs1 =>
    simp only [exec, execRdbits, execTodec] at h
    rcases emitReg_cases _ rs1 s with ⟨c, e⟩ | ⟨x, -, e⟩ <;> rw [e] at h <;> cases h
    · exact .inl ⟨c, rfl⟩
    · exact .inr (.inl ⟨rfl, rfl, by simp, _, rfl⟩)

/-! ### Steps -/

theorem step_of_idle {s : State} (h : s.host = []) : step s = .next s := by simp [step, fetch, h]

theorem step_of_reset {s : State} {rest : List HostAction} (h : s.host = .reset :: rest) :
    step s = .next (s.setHost rest).resetBlock := by simp [step, fetch, h]

theorem step_of_command {s : State} {rest : List HostAction} {w : CmdWord} {payload : List Byte}
    (h : s.host = .command w payload :: rest) : step s = runWord w ((s.setHost rest).setDin payload) := by
  simp [step, fetch, h]

theorem runWord_of_ok {w : CmdWord} {i : Instr} (h : decode w = .ok i) (s : State) : runWord w s = exec i s := by
  simp [runWord, h]

theorem runWord_of_error {w : CmdWord} {e : DecodeError} (h : decode w = .error e) (s : State) :
    runWord w s = .next (s.raise .illegalCommand) := by
  simp [runWord, h]

/-! ### Responses -/

theorem Cause.code_ne_zero (c : Cause) : c.code ≠ 0 := by cases c <;> decide

theorem Cause.code_injective {c d : Cause} (h : c.code = d.code) : c = d := by
  cases c <;> cases d <;> first | rfl | exact absurd h (by decide)

/-- The fields of a response word are what it was made of, and every other bit is 0 (R29). -/
theorem responseWord_fields (code : BitVec 4) (t : Bool) (ferr : BitVec 4) (d : List Byte) :
    (Response.mk (responseWord code t ferr) d).code = code ∧
      (Response.mk (responseWord code t ferr) d).tBit = t ∧
      (Response.mk (responseWord code t ferr) d).ferr = ferr ∧
      (responseWord code t ferr).extractLsb' 5 3 = 0 ∧ (responseWord code t ferr).extractLsb' 12 20 = 0 := by
  revert code t ferr
  simp only [Response.code, Response.tBit, Response.ferr]
  decide +revert

end Sys2Proof.Machine
end

