-- ==== Sys2Proof/Laws/PerInstr.lean ====
section
/-! SUPPORT. Per-instruction statements about the syntax: the word of every command carries exactly its fields, with its operation code of R60 and zeros in every field its format does not use (R57). -/

namespace Sys2Proof.Laws.WordForm

/-- The fields of the command's word are its fields, and the must-be-zero fields of its format are zero. -/
def Statement (i : Instr) : Prop :=
  unpack (encode i) = i.fields ∧ (unpack (encode i)).opc = i.opc ∧
    ∃ fmt j, assemble (unpack (encode i)) = some (fmt, j) ∧ (unpack (encode i)).unusedZero fmt = true ∧
      j.mnemonic = i.mnemonic

theorem of_fields (i : Instr)
    (h : i.fields.opc = i.opc ∧ ∃ fmt j, assemble i.fields = some (fmt, j) ∧ i.fields.unusedZero fmt = true ∧
      j.mnemonic = i.mnemonic) : Statement i := by
  have hu : unpack (encode i) = i.fields := unpack_pack _
  exact ⟨hu, by rw [hu]; exact h.1, by rw [hu]; exact h.2⟩

theorem nop : Statement .nop := of_fields _ ⟨rfl, _, _, rfl, rfl, rfl⟩
theorem clrerr : Statement .clrerr := of_fields _ ⟨rfl, _, _, rfl, rfl, rfl⟩
theorem new (rd : VReg) (rnd : Bool) (imm : BitVec 32) : Statement (.new rd rnd imm) :=
  of_fields _ ⟨rfl, _, _, rfl, rfl, rfl⟩
theorem setbit (rd : VReg) (imm : BitVec 32) : Statement (.setbit rd imm) := of_fields _ ⟨rfl, _, _, rfl, rfl, rfl⟩
theorem sealv (rd : VReg) : Statement (.sealv rd) := of_fields _ ⟨rfl, _, _, rfl, rfl, rfl⟩
theorem ldbits (rd : VReg) (imm : BitVec 32) : Statement (.ldbits rd imm) := of_fields _ ⟨rfl, _, _, rfl, rfl, rfl⟩
theorem rdbits (rs1 : VReg) : Statement (.rdbits rs1) := of_fields _ ⟨rfl, _, _, rfl, rfl, rfl⟩
theorem add (rd rs1 rs2 : VReg) : Statement (.add rd rs1 rs2) := of_fields _ ⟨rfl, _, _, rfl, rfl, rfl⟩
theorem sub (rd rs1 rs2 : VReg) : Statement (.sub rd rs1 rs2) := of_fields _ ⟨rfl, _, _, rfl, rfl, rfl⟩
theorem mul (rd rs1 rs2 : VReg) : Statement (.mul rd rs1 rs2) := of_fields _ ⟨rfl, _, _, rfl, rfl, rfl⟩
theorem div (rd rs1 rs2 : VReg) : Statement (.div rd rs1 rs2) := of_fields _ ⟨rfl, _, _, rfl, rfl, rfl⟩
theorem mod (rd rs1 rs2 : VReg) : Statement (.mod rd rs1 rs2) := of_fields _ ⟨rfl, _, _, rfl, rfl, rfl⟩
theorem eq (rs1 rs2 : VReg) : Statement (.eq rs1 rs2) := of_fields _ ⟨rfl, _, _, rfl, rfl, rfl⟩
theorem lt (rs1 rs2 : VReg) : Statement (.lt rs1 rs2) := of_fields _ ⟨rfl, _, _, rfl, rfl, rfl⟩
theorem isneg (rs1 : VReg) : Statement (.isneg rs1) := of_fields _ ⟨rfl, _, _, rfl, rfl, rfl⟩
theorem isodd (rs1 : VReg) : Statement (.isodd rs1) := of_fields _ ⟨rfl, _, _, rfl, rfl, rfl⟩
theorem todec (rs1 : VReg) : Statement (.todec rs1) := of_fields _ ⟨rfl, _, _, rfl, rfl, rfl⟩

end Sys2Proof.Laws.WordForm
end

