-- ==== Sys2Proof/Tests/Slice0.lean ====
section
/-! SUPPORT. The model's own tests: words written out from spec/30_encoding.md, vectors of spec/95_test_vectors.md, ill-formed words, and a witness for the hypotheses of every statement that has some. -/

namespace Sys2Proof.Tests

open Sys2Proof Sys2Proof.Machine

/-! ### Small states -/

/-- Reset with these registers written. -/
def st (l : List (VReg × Reg)) : State := l.foldl (fun s p => s.write p.1 p.2) State.reset

/-- `st` with a capacity of one word. -/
def stCap (l : List (VReg × Reg)) : State := { st l with cfg := { wordWidth := 8, capWords := some 1 } }

/-- The `W = 8` sequence of an unsigned value in `n` words. -/
def words (n v : Nat) : Bits := natBits (n * 8) v

/-- Register `i` after a command; nothing where it stopped. -/
def regAfter (r : Result) (i : VReg) : Option Reg :=
  match r with
  | .next t => some (t.read i)
  | _ => none

/-- The newest response after a command. -/
def responseAfter (r : Result) : Option Response :=
  match r with
  | .next t => t.out.head?
  | _ => none

/-! ### Decoding: words written out field by field from R56 and R60 -/

theorem test_decode_nop : decode 0x0000000000000000 = .ok .nop := by decide
theorem test_decode_clrerr : decode 0x0100000000000000 = .ok .clrerr := by decide
theorem test_decode_new : decode 0x1070000000000010 = .ok (.new 7 false 16) := by decide
theorem test_decode_new_rnd : decode 0x100000010000000C = .ok (.new 0 true 12) := by decide
theorem test_decode_setbit : decode 0x1170000000000008 = .ok (.setbit 7 8) := by decide
theorem test_decode_seal : decode 0x1290000000000000 = .ok (.sealv 9) := by decide
theorem test_decode_ldbits : decode 0x1310000000000008 = .ok (.ldbits 1 8) := by decide
theorem test_decode_rdbits : decode 0x1409000000000000 = .ok (.rdbits 9) := by decide
theorem test_decode_add : decode 0x2020100000000000 = .ok (.add 2 0 1) := by decide
theorem test_decode_sub : decode 0x21A1100000000000 = .ok (.sub 10 1 1) := by decide
theorem test_decode_mul : decode 0x2297200000000000 = .ok (.mul 9 7 2) := by decide
theorem test_decode_div : decode 0x2361200000000000 = .ok (.div 6 1 2) := by decide
theorem test_decode_mod : decode 0x24B1200000000000 = .ok (.mod 11 1 2) := by decide
theorem test_decode_eq : decode 0x3001700000000000 = .ok (.eq 1 7) := by decide
theorem test_decode_lt : decode 0x3100700000000000 = .ok (.lt 0 7) := by decide
theorem test_decode_isneg : decode 0x3201000000000000 = .ok (.isneg 1) := by decide
theorem test_decode_isodd : decode 0x330F000000000000 = .ok (.isodd 15) := by decide
theorem test_decode_todec : decode 0x4005000000000000 = .ok (.todec 5) := by decide

/-- R60's rows do not overlap. -/
theorem test_rows_disjoint :
    opcodeRows.Pairwise fun r q => (r.pattern &&& q.mask == q.pattern &&& r.mask) = false := by decide

/-! ### Well-formedness: for each row a word with a must-be-zero bit set, and an unassigned `OPC`, is refused -/

theorem test_illformed_words :
    [0x0000000000000001#64, 0x0110000000000000#64, 0x1000000200000008#64, 0x1001000000000008#64, 0x1100000100000000#64,
     0x1200000000000001#64, 0x1300100000000001#64, 0x1400000100000000#64, 0x2012310000000000#64, 0x2112300000000001#64,
     0x2212300100000000#64, 0x2312300200000000#64, 0x2412300000000001#64, 0x3012300000000000#64, 0x3100700000000001#64,
     0x3200100000000000#64, 0x3310000000000000#64, 0x4003000000000001#64].all
      (fun w => !wellFormedWord w && decide (decode w = .error .nonzeroField)) = true := by decide

theorem test_unassigned_opcodes :
    [0x0200000000000000#64, 0x1500000000000000#64, 0x2500000000000000#64, 0x3400000000000000#64, 0x4103000000000000#64,
     0xFF00000000000000#64].all
      (fun w => !wellFormedWord w && decide (decode w = .error .unassignedOpcode)) = true := by decide

/-! ### Units: vectors of spec/95_test_vectors.md -/

/-- V-N3: retained bits that fill a word need one more sign bit (conflict C1). -/
theorem test_compact_keeps_sign : compact 8 (words 2 0xFF7F) = words 2 0xFF7F := by decide
/-- V-N5. -/
theorem test_compact_shortens : compact 8 (words 2 0xFF80) = words 1 0x80 := by decide
/-- V-G6: the most negative value is its own negation (conflict C2). -/
theorem test_negate_minneg : negate (words 1 0x80) = words 1 0x80 := by decide
/-- V-D19: 720 / 6, the window primed with two bits. -/
theorem test_longdiv :
    (longdiv (natBits 10 0b1011010000) (natBits 3 0b110)).1 = natBits 8 0b01111000 := by decide
/-- R150's example "999" + "1" = "1000". -/
theorem test_decadd : decadd [9, 9, 9] [1] = [1, 0, 0, 0] := by decide

/-! ### One step of each command -/

/-- R160's example: `FERR = 2`, `T = 0`. -/
theorem test_nop_response :
    (responseAfter (exec .nop { State.reset with ferr := some .divisionByZero })).map Response.word = some 0x00000200#32 := by
  decide
/-- R161's example: `FERR = 3`, `T = 1`. -/
theorem test_clrerr_response :
    (responseAfter (exec .clrerr { State.reset with ferr := some .formatError, t := true })).map Response.word =
      some 0x00000010#32 := by
  decide
/-- V-B3. -/
theorem test_new_two_words : regAfter (exec (.new 0 false 12) State.reset) 0 = some (.build (words 2 0)) := by decide
/-- V-B12 and P6: sixteen recorded draws, the first is position 0. -/
theorem test_new_random :
    regAfter (exec (.new 0 true 12) (State.reset.setRbit
      { script := words 2 0b1011001001110001, live := false, drawn := 0 })) 0 =
        some (.build (words 2 0b1011001001110001)) := by decide
/-- V-B6: position 0 is the sign bit. -/
theorem test_setbit_zero : regAfter (exec (.setbit 0 0) (st [(0, .build (words 1 0))])) 0 =
    some (.build (words 1 0x80)) := by decide
/-- S-d: the first position that fails. -/
theorem test_setbit_range :
    (responseAfter (exec (.setbit 0 8) (st [(0, .build (words 1 0))]))).map Response.code = some 1 := by decide
/-- V-B10: `SEAL` does not compact. -/
theorem test_seal_keeps_width : regAfter (exec (.sealv 0) (st [(0, .build (words 2 0))])) 0 =
    some (.value (words 2 0)) := by decide
/-- V-N8: the first character is the sign. -/
theorem test_ldbits_sign : regAfter (exec (.ldbits 1 3) (State.reset.setDin [0x31, 0x30, 0x31])) 1 =
    some (.value (words 1 0xFD)) := by decide
/-- Section 3.11, row 15: a space is another character. -/
theorem test_ldbits_format :
    (responseAfter (exec (.ldbits 4 3) (State.reset.setDin [0x30, 0x20, 0x31]))).map Response.word =
      some 0x00000303#32 := by decide
/-- V-B14. -/
theorem test_rdbits_output :
    (responseAfter (exec (.rdbits 2) (st [(2, .value (words 1 1))]))).map Response.dout =
      some [0x30, 0x30, 0x30, 0x30, 0x30, 0x30, 0x30, 0x31] := by decide
/-- V-A2: 127 + 1 widens. -/
theorem test_add_widens : regAfter (exec (.add 0 0 1) (st [(0, .value (words 1 127)), (1, .value (words 1 1))])) 0 =
    some (.value (words 2 128)) := by decide
/-- V-A9: 128 + -128 shortens. -/
theorem test_add_shortens : regAfter (exec (.add 2 0 1) (st [(0, .value (words 2 128)), (1, .value (words 1 128))])) 2 =
    some (.value (words 1 0)) := by decide
/-- V-S3: 0 - -128 wraps. -/
theorem test_sub_minneg : regAfter (exec (.sub 3 0 1) (st [(0, .value (words 1 0)), (1, .value (words 1 128))])) 3 =
    some (.value (words 1 128)) := by decide
/-- V-S8. -/
theorem test_sub_plain : regAfter (exec (.sub 3 0 1) (st [(0, .value (words 1 128)), (1, .value (words 1 1))])) 3 =
    some (.value (words 2 0xFF7F)) := by decide
/-- V-M17: -128 * -1 has the wrong sign. -/
theorem test_mul_minneg : regAfter (exec (.mul 4 1 2) (st [(1, .value (words 1 128)), (2, .value (words 1 255))])) 4 =
    some (.value (words 1 128)) := by decide
/-- V-M16: -1 * -128 is exact. -/
theorem test_mul_exact : regAfter (exec (.mul 5 2 1) (st [(1, .value (words 1 128)), (2, .value (words 1 255))])) 5 =
    some (.value (words 2 128)) := by decide
/-- V-D2: -7 / 2 truncates (conflict C3). -/
theorem test_div_truncates : regAfter (exec (.div 2 0 1) (st [(0, .value (words 1 0xF9)), (1, .value (words 1 2))])) 2 =
    some (.value (words 1 0xFD)) := by decide
/-- Section 3.11, row 10: 0 / 0. -/
theorem test_div_by_zero :
    (responseAfter (exec (.div 0 1 2) (st [(1, .value (words 1 0)), (2, .value (words 1 0))]))).map Response.word =
      some 0x00000202#32 := by decide
/-- V-R22: 254 mod -2 is 510, a wrapping case. -/
theorem test_mod_wraps : regAfter (exec (.mod 3 0 1) (st [(0, .value (words 2 254)), (1, .value (words 1 0xFE))])) 3 =
    some (.value (words 2 510)) := by decide
/-- V-R2: -7 mod 2. -/
theorem test_mod_floor : regAfter (exec (.mod 3 0 1) (st [(0, .value (words 1 0xF9)), (1, .value (words 1 2))])) 3 =
    some (.value (words 1 1)) := by decide
/-- V-C2: values of different stored length are equal. -/
theorem test_eq_lengths :
    (responseAfter (exec (.eq 0 1) (st [(0, .value (words 1 0)), (1, .value (words 2 0))]))).map Response.tBit =
      some true := by decide
/-- V-L7: 0 < -128 is claimed. -/
theorem test_lt_minneg :
    (responseAfter (exec (.lt 0 1) (st [(0, .value (words 1 0)), (1, .value (words 1 128))]))).map Response.tBit =
      some true := by decide
/-- V-L2. -/
theorem test_lt_plain :
    (responseAfter (exec (.lt 0 1) (st [(0, .value (words 1 1)), (1, .value (words 1 0xFE))]))).map Response.tBit =
      some false := by decide
/-- V-P4. -/
theorem test_isneg : (responseAfter (exec (.isneg 1) (st [(1, .value (words 1 0xFE))]))).map Response.tBit = some true := by
  decide
/-- V-P10: parity of a negative value. -/
theorem test_isodd : (responseAfter (exec (.isodd 1) (st [(1, .value (words 2 0xFF01))]))).map Response.tBit = some true := by
  decide
/-- V-T8. -/
theorem test_todec_minneg :
    (responseAfter (exec (.todec 1) (st [(1, .value (words 1 128))]))).map Response.dout =
      some [0x2D, 0x31, 0x32, 0x38] := by decide
/-- Section 3.11, row 4: `RS1` a builder is reported before `RS2` EMPTY. -/
theorem test_check_order :
    (responseAfter (exec (.add 0 1 2) (st [(1, .build (words 1 0))]))).map Response.word = some 0x00000505#32 := by decide
/-- Section 3.11, capacity: 127 + 127 with `CAP_WORDS = 1`. -/
theorem test_capacity :
    (responseAfter (exec (.add 2 1 1) (stCap [(1, .value (words 1 127))]))).map Response.word = some 0x00000707#32 := by
  decide
/-- Section 3.11, row 28, through a step: an unassigned `OPC`. -/
theorem test_step_illegal :
    (responseAfter (step (State.reset.withFetchWord 64 0x0500000000000000))).map Response.word = some 0x00000606#32 := by
  decide
/-- The next step runs the word that `withFetchWord` places; `LDBITS` gets the payload its `IMM` asks for. -/
theorem test_step_fetch_word : regAfter (step (State.reset.withFetchWord 64 0x1310000000000008)) 1 =
    some (.value (words 1 0)) := by decide
theorem test_decode_table_word : decodeTableWord 64 0x2012300000000000 = some (.add 1 2 3) := by decide

/-! ### Witnesses: for every statement with hypotheses, a state and operands that meet all of them, each clause at a boundary -/

theorem not_wrapping_of_nonneg {W : Nat} {v : Int} (h : 0 ≤ v) : ¬Wrapping W v := by
  rintro ⟨j, -, hj⟩
  have : (0 : Int) < 2 ^ (j * W - 1) := by positivity
  omega

/-- At `W = 8` the wrapping values are -128, -32768 and lower ones. -/
theorem not_wrapping_eight {v : Int} (h : v ≠ -128) (h2 : -32768 < v) : ¬Wrapping 8 v := by
  rintro ⟨j, hj, rfl⟩
  obtain rfl | hj2 : j = 1 ∨ 2 ≤ j := by omega
  · exact h (by norm_num)
  · have : (2 : Int) ^ 15 ≤ 2 ^ (j * 8 - 1) := pow_le_pow_right₀ (by norm_num) (by omega)
    norm_num at this
    omega

theorem witness_EncodeDecode : decode 0x24F1200000000000 = .ok (.mod 15 1 2) := by decide

theorem witness_DecodeMatchesMask :
    (⟨"MOD", 0x2400000000000000, 0xFF000FFFFFFFFFFF⟩ : OpcodeRow) ∈ opcodeRows ∧
      0x24F1200000000000#64 &&& 0xFF000FFFFFFFFFFF#64 = 0x2400000000000000#64 := by decide

/-- The host is about to issue `ADD v0, v1, v2` and then to assert reset. -/
def sAdd : State := (st [(1, .value (words 1 127)), (2, .value (words 1 1))]).setHost [.command 0x2001200000000000 [], .reset]

theorem witness_StepRunsDecoded :
    sAdd.host = .command 0x2001200000000000 [] :: [.reset] ∧ decode 0x2001200000000000 = .ok (.add 0 1 2) := by decide

theorem witness_IllegalWordFails :
    (State.reset.setHost [.command 0x0000000000000001 [0x31]]).host = .command 0x0000000000000001 [0x31] :: [] ∧
      wellFormedWord 0x0000000000000001 = false ∧ State.reset.ferr = none ∧
      (State.reset.noteFault .rangeError).ferr = some .rangeError := by decide

theorem witness_StepWaitsAndResets :
    State.reset.host = [] ∧ (sAdd.setHost [.reset]).host = .reset :: [] := by decide

theorem witness_StepKeepsInv : sAdd.Inv ∧ ∃ t, step sAdd = .next t ∧ t.read 0 = .value (words 2 128) := by
  refine ⟨by decide, _, rfl, by decide⟩

theorem witness_WidenValue :
    ((words 1 0x7F) ≠ [] ∧ (words 1 0x7F).length ≤ 8 ∧ 0 ≤ sval (words 1 0x7F)) ∧
      ([true] ≠ [] ∧ [true].length ≤ 16 ∧ sval [true] < 0) := by decide

theorem witness_CompactCanonical :
    2 ≤ 8 ∧ words 2 0xFF80 ≠ [] ∧ words 1 0x80 ≠ [] ∧ sval (words 1 0x80) = sval (words 2 0xFF80) ∧
      (-(2 ^ (1 * 8 - 1)) ≤ sval (words 2 0xFF80) ∧ sval (words 2 0xFF80) < 2 ^ (1 * 8 - 1)) := by decide

theorem witness_NegateValue :
    sval (words 1 0) = 0 ∧ minneg (words 1 0x80) = true ∧ minneg (words 2 0xFF80) = false ∧ sval (words 1 0x80) < 0 := by
  decide

theorem witness_AddExact : 2 ≤ 2 ∧ [true] ≠ [] ∧ words 1 0x80 ≠ [] ∧ natBits 3 5 ≠ [] := by decide

theorem witness_SubValue : minneg (words 1 0x81) = false ∧ minneg (words 1 0x80) = true := by decide

theorem witness_MulValue :
    sval (words 2 0) = 0 ∧ 0 < sval (words 1 1) ∧ (sval (words 1 255) < 0 ∧ minneg (words 2 0xFF80) = false) ∧
      (sval (words 1 255) < 0 ∧ minneg (words 1 0x80) = true) ∧
      (MulExact (words 1 255) (words 1 128) ∧ MulExact (words 1 128) (words 1 3)) := by decide

theorem witness_MulValue_laws :
    (MulExact (words 1 3) (words 1 255) ∧ MulExact (words 1 255) (words 1 3)) ∧
      (MulExact (mulseq 8 (words 1 3) (words 1 255)) (words 1 128) ∧ MulExact (words 1 255) (words 1 128) ∧
        MulExact (words 1 3) (mulseq 8 (words 1 255) (words 1 128))) ∧
      (MulExact (words 1 3) (words 1 128) ∧ MulExact (words 1 3) (addseq 8 (words 1 255) (words 1 128))) := by decide

theorem witness_MagValue : words 1 0x80 ≠ [] ∧ mag (words 1 0x80) ≠ [] ∧ mag (words 1 0) = [] := by decide

theorem witness_LongDivision :
    [true].head? = some true ∧ (natBits 3 0b110).head? = some true ∧ (natBits 10 0b1011010000).head? = some true := by
  decide

theorem witness_DivValue : words 1 0x80 ≠ [] ∧ words 1 255 ≠ [] ∧ sval (words 1 255) ≠ 0 := by decide

/-- V-R24: `P = -128` is wrapping, so it is added. -/
theorem witness_ModAnswer_product : ModAnswer 8 (-128) (-1) (-256) :=
  ⟨-128, fun h => absurd h.2 (not_wrapping_of_nonneg (by decide)), fun _ => by decide, fun _ => by decide,
    fun h => absurd ⟨1, by decide, by decide⟩ h⟩

/-- V-R22: `q2 = -128` is wrapping and the divisor negative, so the product has the wrong sign. -/
theorem witness_ModAnswer_quotient : ModAnswer 8 254 (-2) 510 :=
  ⟨-256, fun _ => by decide, fun h => absurd ⟨by decide, 1, by decide, by decide⟩ h,
    fun h => absurd h (not_wrapping_eight (by decide) (by decide)), fun _ => by decide⟩

/-- V-R2: neither. -/
theorem witness_ModAnswer_plain : ModAnswer 8 (-7) 2 1 :=
  ⟨-8, fun h => absurd h.1 (by decide), fun _ => by decide,
    fun h => absurd h (not_wrapping_eight (by decide) (by decide)), fun _ => by decide⟩

theorem witness_ModValue : words 1 0xF9 ≠ [] ∧ words 1 2 ≠ [] ∧ sval (words 1 2) ≠ 0 := by decide

/-- V-R4, V-R2, V-R5, V-R7: one of each row. -/
theorem witness_ModRows :
    (∃ r, modseq 8 (words 1 0xF9) (words 1 0xFE) = .ok r ∧ ¬Wrapping 8 (decQuotient (-7) (-2)) ∧
      ¬Wrapping 8 (decQuotient (-7) (-2) * -2) ∧ (0 : Int) ≤ -7 * -2) ∧
    (∃ r, modseq 8 (words 1 0xF9) (words 1 2) = .ok r ∧ ¬Wrapping 8 (decQuotient (-7) 2 * 2) ∧
      Int.tdiv (-7) 2 < 0 ∧ Int.tmod (-7) 2 ≠ 0) ∧
    (∃ r, modseq 8 (words 1 0xFA) (words 1 2) = .ok r ∧ ¬Wrapping 8 (decQuotient (-6) 2 * 2) ∧
      Int.tdiv (-6) 2 < 0 ∧ Int.tmod (-6) 2 = 0) ∧
    (∃ r, modseq 8 (words 1 0xFF) (words 1 2) = .ok r ∧ ¬Wrapping 8 (decQuotient (-1) 2 * 2) ∧
      (-1 : Int) * 2 < 0 ∧ Int.natAbs (-1) < Int.natAbs 2) := by
  refine ⟨⟨_, rfl, ?_, ?_, by decide⟩, ⟨_, rfl, ?_, by decide, by decide⟩, ⟨_, rfl, ?_, by decide, by decide⟩,
    ⟨_, rfl, ?_, by decide, by decide⟩⟩ <;> exact not_wrapping_eight (by decide) (by decide)

theorem witness_DivModNonnegative : (0 ≤ sval (words 1 0) ∧ 0 < sval (words 1 1)) ∧ 0 ≤ sval (words 2 720) := by decide

theorem witness_EqualsValue :
    words 1 0 ≠ [] ∧ words 2 0 ≠ [] ∧ compact 8 (words 1 0) = compact 8 (words 2 0) ∧ sval (words 1 0) = sval (words 2 0) := by
  decide

theorem witness_LessThanValue :
    (minneg (words 2 0xFF80) = false ∧ sval (words 1 0) ≥ sval (words 2 0xFF80)) ∧
      (minneg (words 1 0x80) = true ∧ -(2 ^ (8 - 1)) ≤ sval (words 1 0x80) ∧ sval (words 1 127) < 2 ^ (8 - 1) ∧
        ¬sval (words 2 128) < 2 ^ (8 - 1)) := by decide

theorem witness_TodecValue : words 1 0x80 ≠ [] ∧ numeral (-128) = [0x2D, 0x31, 0x32, 0x38] ∧ numeral 0 = [0x30] := by
  refine ⟨by decide, ?_, by decide⟩
  norm_num [numeral]
  decide

/-- `IMM = 0`, `IMM = 8`, `IMM = 9`: one word, one word, two words. -/
theorem witness_NewZeroed :
    State.reset.cfg.WF ∧ IsWordCount State.reset.cfg.wordWidth (0#32).toNat 1 ∧
      IsWordCount State.reset.cfg.wordWidth (8#32).toNat 1 ∧ IsWordCount State.reset.cfg.wordWidth (9#32).toNat 2 ∧
      holdsWords State.reset.cfg 2 = true := by decide

theorem witness_NewRandom :
    State.reset.cfg.WF ∧ IsWordCount State.reset.cfg.wordWidth (12#32).toNat 2 ∧ holdsWords State.reset.cfg 2 = true ∧
      (State.reset.rbit.live = true ∧ 16 ≤ (words 2 0x3271).length) := by decide

theorem witness_NewUnanswered :
    State.reset.cfg.WF ∧ IsWordCount State.reset.cfg.wordWidth (8#32).toNat 1 ∧ holdsWords State.reset.cfg 1 = true ∧
      (State.reset.setRbit { script := natBits 7 5, live := false, drawn := 0 }).rbit.live = false ∧
      (natBits 7 5).length < 1 * 8 := by decide

theorem witness_SetbitRun :
    (st [(0, .build (words 1 0))]).read 0 = .build (words 1 0) ∧ (7#32).toNat < (words 1 0).length := by decide

theorem witness_SealRun : (st [(15, .build (words 2 0))]).read 15 = .build (words 2 0) := by decide

theorem witness_LdbitsRun :
    (State.reset.setDin [0x31, 0x30, 0x31]).Inv ∧ natBits 3 5 ≠ [] ∧ (natBits 3 5).length = (3#32).toNat ∧
      (State.reset.setDin [0x31, 0x30, 0x31]).din = (natBits 3 5).map (fun b : Bool => if b then 0x31#8 else 0x30#8) ∧
      capOk State.reset.cfg (canon 8 (sval (natBits 3 5))) = true := by decide

theorem witness_LdbitsPayloadLength : (State.reset.setDin [0x31]).din.length ≠ (2#32).toNat := by decide

/-- Two values for the commands with two sources. -/
def sTwo : State := st [(0, .value (words 1 127)), (1, .value (words 1 0x80))]

theorem witness_RdbitsRun : sTwo.read 0 = .value (words 1 127) := by decide

theorem witness_RdbitsThenLdbits :
    (st [(0, .value (words 2 0))]).Inv ∧ (st [(0, .value (words 2 0))]).read 0 = .value (words 2 0) ∧
      (words 2 0).length = (16#32).toNat := by decide

theorem witness_AddRun :
    sTwo.Inv ∧ sTwo.read 0 = .value (words 1 127) ∧ sTwo.read 1 = .value (words 1 0x80) ∧
      capOk sTwo.cfg (canon sTwo.cfg.wordWidth (sval (words 1 127) + sval (words 1 0x80))) = true := by decide

theorem witness_SubRun :
    (-1 : Int) = (if minneg (words 1 0x80) then sval (words 1 127) + sval (words 1 0x80)
      else sval (words 1 127) - sval (words 1 0x80)) ∧ capOk sTwo.cfg (canon sTwo.cfg.wordWidth (-1)) = true := by decide

theorem witness_MulRun :
    (-16384 : Int) = (if sval (words 1 0x80) < 0 ∧ minneg (words 1 0x80) = true
      then -(sval (words 1 0x80) * sval (words 1 0x80)) else sval (words 1 0x80) * sval (words 1 0x80)) ∧
      capOk sTwo.cfg (canon sTwo.cfg.wordWidth (-16384)) = true := by decide

theorem witness_DivRun :
    sval (words 1 0x80) ≠ 0 ∧
      capOk sTwo.cfg (canon sTwo.cfg.wordWidth ((sval (words 1 127)).tdiv (sval (words 1 0x80)))) = true := by decide

theorem witness_ModRun :
    (st [(0, .value (words 2 254)), (1, .value (words 1 0xFE))]).Inv ∧ sval (words 1 0xFE) ≠ 0 ∧
      ModAnswer 8 (sval (words 2 254)) (sval (words 1 0xFE)) 510 ∧ capOk State.reset.cfg (canon 8 510) = true :=
  ⟨by decide, by decide, witness_ModAnswer_quotient, by decide⟩

theorem witness_EqLtRun : sTwo.Inv ∧ minneg (words 1 0x80) = true ∧ minneg (words 1 127) = false := by decide

theorem witness_IsnegIsoddRun : sTwo.Inv ∧ sTwo.read 0 = .value (words 1 127) := by decide

theorem witness_TodecRun : sTwo.Inv ∧ sTwo.read 1 = .value (words 1 0x80) := by decide

theorem witness_SourceChecks :
    (Instr.add 0 1 2).valueSources = [1] ++ 2 :: [] ∧ (Instr.lt 1 2).valueSources = [] ++ 1 :: [2] ∧
      (st [(1, .value (words 1 1))]).read 1 = .value (words 1 1) ∧ (st [(1, .value (words 1 1))]).read 2 = .empty ∧
      (st [(2, .build (words 1 1))]).read 2 = .build (words 1 1) ∧ (Instr.setbit 1 0).builderSource = some 1 := by decide

theorem witness_RangeErrorExactly :
    ∃ t, exec (.setbit 0 8) (st [(0, .build (words 1 0))]) = .next t ∧ t.lastCode = some 1 :=
  ⟨_, rfl, by decide⟩

theorem witness_DivisionByZeroExactly :
    (st [(1, .value (words 2 0))]).Inv ∧
      ∃ t, exec (.mod 0 1 1) (st [(1, .value (words 2 0))]) = .next t ∧ t.lastCode = some 2 :=
  ⟨by decide, _, rfl, by decide⟩

theorem witness_FormatErrorExactly :
    (∃ t, exec (.ldbits 0 0) State.reset = .next t ∧ t.lastCode = some 3) ∧
      ∃ t, exec (.ldbits 0 1) (State.reset.setDin [0x32]) = .next t ∧ t.lastCode = some 3 :=
  ⟨⟨_, rfl, by decide⟩, ⟨_, rfl, by decide⟩⟩

/-- Each clause with `CAP_WORDS = 1`: 127 + 127, 0 - 128, 16 * 16, -128 / -1, 254 mod -2. -/
theorem witness_CapacityChecks :
    (IsWordCount 8 (9#32).toNat 2 ∧ holdsWords (stCap []).cfg 2 = false) ∧
    (capOk (stCap []).cfg (canon 8 (sval (natBits 10 511))) = false) ∧
    ((stCap [(1, .value (words 1 127)), (2, .value (words 1 0x80))]).Inv ∧
      capOk (stCap []).cfg (canon 8 (127 + 127)) = false ∧ capOk (stCap []).cfg (canon 8 (-128 - 127)) = false ∧
      capOk (stCap []).cfg (canon 8 (127 * 127)) = false ∧ capOk (stCap []).cfg (canon 8 (Int.tdiv (-128) (-1))) = false ∧
      (sval (words 1 255) ≠ 0 ∧ ModAnswer 8 (-128) (-1) (-256) ∧ capOk (stCap []).cfg (canon 8 (-256)) = false)) ∧
    (sTwo.cfg.capWords = none ∧ ∃ t, exec (.add 0 0 1) sTwo = .next t) :=
  ⟨by decide, by decide, ⟨by decide, by decide, by decide, by decide, by decide, by decide, witness_ModAnswer_product,
    by decide⟩, by decide, _, rfl⟩

theorem witness_FaultEntry :
    (∃ t, runWord 0x2001200000000000 State.reset = .next t ∧ t.lastCode = some 4) ∧
      ∃ t, runWord 0xFF00000000000000 (State.reset.noteFault .rangeError) = .next t ∧ t.lastCode = some 6 :=
  ⟨⟨_, rfl, by decide⟩, ⟨_, rfl, by decide⟩⟩

theorem witness_ResponseWord : ∃ t, runWord 0x0000000000000000 State.reset = .next t := ⟨_, rfl⟩

theorem witness_FrameWriters :
    (Instr.sub 3 0 1).dest = some 3 ∧ (Instr.sub 3 0 1).draws = false ∧ ∃ t, exec (.sub 3 0 1) sTwo = .next t :=
  ⟨by decide, by decide, _, rfl⟩

theorem witness_FramePredicates :
    (Instr.lt 0 1).writesT = true ∧ (∃ t, exec (.lt 0 1) sTwo = .next t) ∧
      ∃ t, exec (.isodd 5) sTwo = .next t ∧ t.lastCode ≠ some 0 :=
  ⟨by decide, ⟨_, rfl⟩, _, rfl, by decide⟩

theorem witness_FrameReporting :
    ((Instr.todec 0).dest = none ∧ (Instr.todec 0).writesT = false ∧ ∃ t, exec (.todec 0) sTwo = .next t) ∧
      ∃ t, exec .clrerr sTwo = .next t :=
  ⟨⟨by decide, by decide, _, rfl⟩, _, rfl⟩

theorem witness_FerrSticky :
    (sAdd.noteFault .formatError).ferr = some .formatError ∧ sAdd.ferr = none ∧
      (∃ t, step (sAdd.noteFault .formatError) = .next t) ∧ ∃ t, step sAdd = .next t :=
  ⟨by decide, by decide, ⟨_, rfl⟩, _, rfl⟩

theorem witness_TWrittenByPredicates :
    (∃ t, step (sTwo.setHost [.command 0x3201000000000000 []]) = .next t ∧ t.t ≠ sTwo.t) ∧
      ∃ t, step ((sTwo.setT true).setHost [.reset]) = .next t ∧ t.t ≠ true :=
  ⟨⟨_, rfl, by decide⟩, _, rfl, by decide⟩

theorem witness_RegisterTransitions :
    sTwo.Inv ∧ (∃ t, exec (.new 0 false 8) sTwo = .next t ∧ t.lastCode = some 0) ∧
      (∃ t, exec (.add 2 0 1) sTwo = .next t ∧ t.lastCode = some 0) ∧
      (∃ t, exec (.setbit 3 0) (st [(3, .build (words 1 0))]) = .next t ∧ t.lastCode = some 0) ∧
      ∃ t, exec (.sealv 3) (st [(3, .build (words 1 0))]) = .next t ∧ t.lastCode = some 0 :=
  ⟨by decide, ⟨_, rfl, by decide⟩, ⟨_, rfl, by decide⟩, ⟨_, rfl, by decide⟩, _, rfl, by decide⟩

/-- Both forms of the proviso: a live source, and a silent one with recorded answers enough. -/
theorem witness_EveryCommandCompletes :
    decode 0x1000000100000008 = .ok (.new 0 true 8) ∧ (Instr.new 0 true 8).payloadKept [] ∧
      (Instr.new 0 true 8).drawsAnswered State.reset ∧
      (Instr.new 0 true 8).drawsAnswered (State.reset.setRbit { script := words 1 5, live := false, drawn := 0 }) ∧
      (decode 0x1300000000000001 = .ok (.ldbits 0 1) ∧ (Instr.ldbits 0 1).payloadKept [0x31]) :=
  ⟨by decide, trivial, .inl rfl, .inr (by decide), by decide, by
    show [0x31#8].length = (1#32).toNat
    decide⟩

theorem witness_LaterCommandsUnseen :
    ∃ t, step (sTwo.setHost (.command 0x2020100000000000 [] :: [.reset])) = .next t := ⟨_, rfl⟩

theorem witness_OneResponsePerCommand :
    ∃ t, Host.Core.run Sys2Proof.core 3
      (sTwo.setHost [.command 0x2020100000000000 [], .reset, .command 0 []]) = .next t := ⟨_, rfl⟩

end Sys2Proof.Tests
end

/-! Family `10_state.md`: the state after reset (O8), the response word (O51), and the invariant of every step (O10). -/

namespace Sys2Proof.Machine

/-! ### The response of a command (R29) -/

/-- `t` is reached by giving one response, its code 0 or a cause, in a state that holds the responses of `s`. -/
def AnswersOnce (s t : State) : Prop :=
  ∃ (s1 : State) (code : BitVec 4) (d : List Byte),
    t = s1.respond code d ∧ s1.out = s.out ∧ (code = 0 ∨ ∃ c : Cause, code = c.code)

/-- Every outcome of `exec_cases` ends in `State.respond`. -/
theorem exec_answersOnce {i : Instr} {s t : State} (h : exec i s = .next t) : AnswersOnce s t := by
  obtain ⟨c, rfl⟩ | ⟨-, -, -, d, rfl⟩ | ⟨-, rfl⟩ | ⟨-, b, rfl⟩ | ⟨rd, r, -, -, rfl⟩ | ⟨rd, imm, x, src, -, -, rfl⟩ :=
    exec_cases h
  · exact ⟨s.noteFault c, c.code, [], rfl, rfl, .inr ⟨c, rfl⟩⟩
  · exact ⟨s, 0, d, rfl, rfl, .inl rfl⟩
  · exact ⟨s.clearFerr, 0, [], rfl, rfl, .inl rfl⟩
  · exact ⟨s.setT b, 0, [], rfl, rfl, .inl rfl⟩
  · exact ⟨s.write rd r, 0, [], rfl, rfl, .inl rfl⟩
  · exact ⟨(s.setRbit src).write rd (.build x), 0, [], rfl, rfl, .inl rfl⟩

/-- A command word: one that does not decode is a fault (R61), and a fault responds too (R170). -/
theorem runWord_answersOnce {w : CmdWord} {s t : State} (h : runWord w s = .next t) : AnswersOnce s t := by
  cases hd : decode w with
  | error e =>
    rw [runWord_of_error hd] at h
    cases h
    exact ⟨s.noteFault .illegalCommand, Cause.illegalCommand.code, [], rfl, rfl, .inr ⟨_, rfl⟩⟩
  | ok i =>
    rw [runWord_of_ok hd] at h
    exact exec_answersOnce h

/-! ### Responses are well formed (R29, R165) -/

theorem Cause.code_toNat_le (c : Cause) : c.code.toNat ≤ 7 := by cases c <;> decide

theorem State.ferrField_toNat_le (s : State) : s.ferrField.toNat ≤ 7 := by
  cases h : s.ferr with
  | none => simp [State.ferrField, h]
  | some c => simpa [State.ferrField, h] using c.code_toNat_le

/-- A response made of assigned codes is well formed. -/
theorem Response.wf_mk {code ferr : BitVec 4} (hcode : code.toNat ≤ 7) (hferr : ferr.toNat ≤ 7) (t : Bool)
    (d : List Byte) : (Response.mk (responseWord code t ferr) d).wf = true := by
  obtain ⟨hc, -, hf, hlow, hhigh⟩ := responseWord_fields code t ferr d
  simp [Response.wf, hc, hf, hlow, hhigh, hcode, hferr]

/-! ### Storable sequences (R22) -/

@[simp] theorem Reg.wf_empty (c : Config) : Reg.empty.wf c = true := rfl

@[simp] theorem Reg.wf_build (c : Config) (x : Bits) : (Reg.build x).wf c = true ↔ Storable c x := decide_eq_true_iff

@[simp] theorem Reg.wf_value (c : Config) (x : Bits) : (Reg.value x).wf c = true ↔ Storable c x := decide_eq_true_iff

/-- Whether a sequence can be stored depends on its length alone. -/
theorem Storable.of_length_eq {c : Config} {x y : Bits} (hx : Storable c x) (h : y.length = x.length) :
    Storable c y := by
  obtain ⟨hne, hdvd, hcap⟩ := hx
  refine ⟨?_, h ▸ hdvd, by rwa [capOk, h]⟩
  rw [← List.length_pos_iff, h]
  exact List.length_pos_iff.mpr hne

/-- A positive number of words that a register can hold. -/
theorem storable_of_words {c : Config} {x : Bits} {n : Nat} (hc : c.WF) (hn : 1 ≤ n)
    (hl : x.length = n * c.wordWidth) (hcap : holdsWords c n = true) : Storable c x := by
  have hW : 0 < c.wordWidth := Nat.lt_of_lt_of_le Nat.two_pos hc
  refine ⟨?_, ⟨n, by rw [hl, Nat.mul_comm]⟩, by rwa [capOk, hl, Nat.mul_div_cancel _ hW]⟩
  rw [← List.length_pos_iff, hl]
  exact Nat.mul_pos hn hW

/-! ### What keeps the invariant -/

section Invariant

variable {s : State}

theorem State.inv_setT (hs : s.Inv) (b : Bool) : (s.setT b).Inv := hs
theorem State.inv_noteFault (hs : s.Inv) (c : Cause) : (s.noteFault c).Inv := hs
theorem State.inv_clearFerr (hs : s.Inv) : s.clearFerr.Inv := hs
theorem State.inv_setRbit (hs : s.Inv) (r : RandomSource) : (s.setRbit r).Inv := hs
theorem State.inv_setHost (hs : s.Inv) (rest : List HostAction) : (s.setHost rest).Inv := hs
theorem State.inv_setDin (hs : s.Inv) (payload : List Byte) : (s.setDin payload).Inv := hs

theorem State.inv_resetBlock (hs : s.Inv) : s.resetBlock.Inv := by
  obtain ⟨hcfg, -, hout⟩ := hs
  exact ⟨hcfg, fun i => by simp, hout⟩

theorem State.inv_write (hs : s.Inv) (i : VReg) {r : Reg} (hr : r.wf s.cfg = true) : (s.write i r).Inv := by
  obtain ⟨hcfg, hregs, hout⟩ := hs
  refine ⟨hcfg, fun j => ?_, hout⟩
  rw [State.read_write]
  split
  · exact hr
  · exact hregs j

theorem State.inv_respond (hs : s.Inv) {code : BitVec 4} (hcode : code.toNat ≤ 7) (d : List Byte) :
    (s.respond code d).Inv := by
  obtain ⟨hcfg, hregs, hout⟩ := hs
  exact ⟨hcfg, hregs, List.forall_mem_cons.mpr ⟨Response.wf_mk hcode s.ferrField_toNat_le s.t d, hout⟩⟩

theorem State.inv_succeed (hs : s.Inv) (d : List Byte) : (s.succeed d).Inv := State.inv_respond hs (by decide) d

theorem State.inv_raise (hs : s.Inv) (c : Cause) : (s.raise c).Inv :=
  State.inv_respond (State.inv_noteFault hs c) c.code_toNat_le []

/-! ### What the commands write -/

theorem storable_of_needBuild (hs : s.Inv) {rd : VReg} {x : Bits} (h : needBuild s rd = .ok x) : Storable s.cfg x := by
  obtain ⟨-, hregs, -⟩ := hs
  have hwf := hregs rd
  rwa [needBuild_ok_iff.mp h, Reg.wf_build] at hwf

/-- A stored result of whole words leaves a well-formed destination, the store made or refused. -/
theorem storeValue_dest_wf {t : State} (hs : s.Inv) (rd : VReg) {y : Bits} (hy : Aligned s.cfg.wordWidth y)
    (h : storeValue s rd y = .next t) : (t.read rd).wf s.cfg = true := by
  obtain ⟨-, hregs, -⟩ := hs
  obtain ⟨hne, hdvd⟩ := hy
  rcases storeValue_cases s rd y with ⟨hcap, e⟩ | ⟨-, e⟩ <;> rw [e] at h <;> cases h
  · simpa using (⟨hne, hdvd, hcap⟩ : Storable s.cfg y)
  · exact hregs rd

/-- Format R3, with an operation whose results are whole words. -/
theorem arith_dest_wf {t : State} (hs : s.Inv) {op : Nat → Bits → Bits → Except Cause Bits} (rd rs1 rs2 : VReg)
    (hop : ∀ a b y, op s.cfg.wordWidth a b = .ok y → Aligned s.cfg.wordWidth y)
    (h : arith op rd rs1 rs2 s = .next t) : (t.read rd).wf s.cfg = true := by
  obtain ⟨-, hregs, -⟩ := hs
  obtain ⟨c, e⟩ | ⟨a, b, y, -, -, hy, hcap, e⟩ := arith_cases op rd rs1 rs2 s <;> rw [e] at h <;> cases h
  · exact hregs rd
  · obtain ⟨hne, hdvd⟩ := hop a b y hy
    simpa using (⟨hne, hdvd, hcap⟩ : Storable s.cfg y)

/-- Format R3, with an operation that raises no error of its own. -/
theorem arith_ok_dest_wf {t : State} (hs : s.Inv) {f : Nat → Bits → Bits → Bits} (rd rs1 rs2 : VReg)
    (hf : ∀ a b, Aligned s.cfg.wordWidth (f s.cfg.wordWidth a b))
    (h : arith (fun W a b => .ok (f W a b)) rd rs1 rs2 s = .next t) : (t.read rd).wf s.cfg = true := by
  refine arith_dest_wf hs rd rs1 rs2 (fun a b y hy => ?_) h
  cases hy
  exact hf a b

/-- R22 for the destination: after any command that names one, the destination holds nothing or a storable sequence. -/
theorem exec_dest_wf {i : Instr} {t : State} {rd : VReg} (hs : s.Inv) (hd : i.dest = some rd)
    (h : exec i s = .next t) : (t.read rd).wf s.cfg = true := by
  have ⟨hcfg, hregs, _⟩ := hs
  have hW : 0 < s.cfg.wordWidth := Nat.lt_of_lt_of_le Nat.two_pos hcfg
  cases i with
  | nop | clrerr | rdbits | eq | lt | isneg | isodd | todec => cases hd
  | new rd rnd imm =>
    cases hd
    have hn := one_le_allocWords s.cfg.wordWidth imm
    simp only [exec, execNew] at h
    split at h
    · next hcap =>
      split at h
      · split at h
        · cases h
        · next x src hx =>
          cases h
          obtain ⟨hlen, -⟩ := RandomSource.drawBits_some hx
          simpa using storable_of_words hcfg hn hlen hcap
      · cases h
        simpa using storable_of_words hcfg hn (length_rep false _) hcap
    · cases h
      exact hregs rd
  | setbit rd imm =>
    cases hd
    simp only [exec, execSetbit] at h
    split at h
    · cases h
      exact hregs rd
    · next x hx =>
      split at h <;> cases h
      · simpa using (storable_of_needBuild hs hx).of_length_eq List.length_set
      · exact hregs rd
  | sealv rd =>
    cases hd
    simp only [exec, execSeal] at h
    split at h <;> cases h
    · exact hregs rd
    · next x hx =>
      simpa using storable_of_needBuild hs hx
  | ldbits rd imm =>
    cases hd
    simp only [exec, execLdbits] at h
    split at h
    · split at h
      · cases h
        exact hregs rd
      · split at h
        · cases h
          exact hregs rd
        · exact storeValue_dest_wf hs rd (aligned_compact hW _) h
    · cases h
  | add rd rs1 rs2 =>
    cases hd
    exact arith_ok_dest_wf hs rd rs1 rs2 (aligned_addseq hW) h
  | sub rd rs1 rs2 =>
    cases hd
    exact arith_ok_dest_wf hs rd rs1 rs2 (aligned_subseq hW) h
  | mul rd rs1 rs2 =>
    cases hd
    exact arith_ok_dest_wf hs rd rs1 rs2 (aligned_mulseq hW) h
  | div rd rs1 rs2 =>
    cases hd
    refine arith_dest_wf hs rd rs1 rs2 (fun a b y hy => ?_) h
    obtain e | ⟨q, e, hq⟩ := divseq_cases hW a b <;> rw [e] at hy <;> cases hy
    exact hq
  | mod rd rs1 rs2 =>
    cases hd
    refine arith_dest_wf hs rd rs1 rs2 (fun a b y hy => ?_) h
    obtain e | ⟨r, e, hr⟩ := modseq_cases hW a b <;> rw [e] at hy <;> cases hy
    exact hr

/-! ### The invariant through commands, words and steps -/

/-- Every outcome of `exec_cases` keeps the invariant, the two writes by `exec_dest_wf`. -/
theorem exec_inv {i : Instr} {t : State} (hs : s.Inv) (h : exec i s = .next t) : t.Inv := by
  obtain ⟨c, rfl⟩ | ⟨-, -, -, d, rfl⟩ | ⟨-, rfl⟩ | ⟨-, b, rfl⟩ | ⟨rd, r, hd, -, rfl⟩ |
    ⟨rd, imm, x, src, rfl, -, rfl⟩ := exec_cases h
  · exact State.inv_raise hs c
  · exact State.inv_succeed hs d
  · exact State.inv_succeed (State.inv_clearFerr hs) []
  · exact State.inv_succeed (State.inv_setT hs b) []
  · have hr : r.wf s.cfg = true := by simpa only [State.read_succeed, State.read_write_self] using exec_dest_wf hs hd h
    exact State.inv_succeed (State.inv_write hs rd hr) []
  · have hr : (Reg.build x).wf s.cfg = true := by
      simpa only [State.read_succeed, State.read_write_self] using exec_dest_wf hs rfl h
    exact State.inv_succeed (State.inv_write (State.inv_setRbit hs src) rd hr) []

theorem runWord_inv {w : CmdWord} {t : State} (hs : s.Inv) (h : runWord w s = .next t) : t.Inv := by
  cases hd : decode w with
  | error e =>
    rw [runWord_of_error hd] at h
    cases h
    exact State.inv_raise hs .illegalCommand
  | ok i =>
    rw [runWord_of_ok hd] at h
    exact exec_inv hs h

theorem step_inv {t : State} (hs : s.Inv) (h : step s = .next t) : t.Inv := by
  cases hh : s.host with
  | nil =>
    rw [step_of_idle hh] at h
    cases h
    exact hs
  | cons a rest =>
    cases a with
    | reset =>
      rw [step_of_reset hh] at h
      cases h
      exact State.inv_resetBlock (State.inv_setHost hs rest)
    | command w payload =>
      rw [step_of_command hh] at h
      exact runWord_inv (State.inv_setDin (State.inv_setHost hs rest) payload) h

end Invariant

end Sys2Proof.Machine

namespace Sys2Proof.Proofs

open Machine

/-- Settles O10, by the host's next action (`step_inv`): waiting and reset are immediate, and a command keeps the invariant
because each unit gives a positive whole number of words (R43) and each store is checked against the capacity (R176). -/
theorem stepKeepsInv : Obligations.StepKeepsInv := fun _ _ => step_inv

/-- Settles O51: every command ends in `State.respond`, whose word has the fields of R29 and zeros elsewhere. -/
theorem responseWord : Obligations.ResponseWord := by
  intro w s t h
  obtain ⟨s1, code, d, rfl, hout, hcode⟩ := runWord_answersOnce h
  obtain ⟨hc, ht, hf, hlow, hhigh⟩ := responseWord_fields code s1.t s1.ferrField d
  exact ⟨_, by rw [State.respond_out, hout], by rwa [hc], ht, hf, hlow, hhigh⟩

/-- Settles O8: the registers by the read law of `State.reset`, the other fields as `State.reset` sets them (R33). -/
theorem resetState : Obligations.ResetState := ⟨State.read_reset, rfl, rfl, rfl, rfl, rfl, rfl⟩

end Sys2Proof.Proofs

/-! Family `40_representation.md`: the signed value under widening (O11), and the compact form as the canonical form of the
signed value (O12). -/

namespace Sys2Proof.Machine

/-! ### The unsigned value from the signed one (R10) -/

theorem uval_of_sval_nonneg {x : Bits} (hx : x ≠ []) (h : 0 ≤ sval x) : (uval x : Int) = sval x := by
  have hs : sign x = false := Bool.eq_false_iff.mpr fun ht => h.not_gt ((sval_neg_iff hx).mpr ht)
  simp [sval, hs]

theorem uval_of_sval_neg {x : Bits} (hx : x ≠ []) (h : sval x < 0) : (uval x : Int) = sval x + 2 ^ x.length := by
  have hs : sign x = true := (sval_neg_iff hx).mp h
  simp [sval, hs]

/-! ### Copies of the sign in front (R76) -/

theorem rep_succ (c : Bool) (k : Nat) : rep c (k + 1) = c :: rep c k := List.replicate_succ

/-- A copied sign counts once: what follows it is read unsigned, and the last copy has the weight `-2^len`. -/
theorem sval_rep_succ_append (c : Bool) (k : Nat) (y : Bits) :
    sval (rep c (k + 1) ++ y) = (uval y : Int) - c.toNat * 2 ^ y.length := by
  induction k with
  | zero => exact sval_cons c y
  | succ k ih =>
    have hsign : sign (rep c (k + 1) ++ y) = c := by rw [rep_succ, List.cons_append, sign_cons]
    have hcopy := sval_sign_cons (x := rep c (k + 1) ++ y) (by simp [rep_succ])
    rwa [hsign, ih, ← List.cons_append, ← rep_succ] at hcopy

theorem sval_rep (c : Bool) {k : Nat} (hk : 0 < k) : sval (rep c k) = -c.toNat := by
  obtain ⟨k, rfl⟩ := Nat.exists_eq_succ_of_ne_zero hk.ne'
  simpa using sval_rep_succ_append c k []

theorem sval_rep_sign_append {x : Bits} (hx : x ≠ []) (k : Nat) : sval (rep (sign x) k ++ x) = sval x := by
  obtain _ | ⟨b, y⟩ := x
  · exact absurd rfl hx
  · have hmove : rep b k ++ b :: y = rep b (k + 1) ++ y := by simp [rep, List.replicate_succ']
    rw [sign_cons, hmove, sval_rep_succ_append, sval_cons]

theorem sval_widen {x : Bits} (hx : x ≠ []) (L : Nat) : sval (widen x L) = sval x := sval_rep_sign_append hx _

theorem widen_self (x : Bits) : widen x x.length = x := by simp [widen, rep]

/-! ### The kept bits (R77) -/

theorem exists_rep_append_dropWhile (c : Bool) (x : Bits) :
    ∃ j, x = rep c j ++ x.dropWhile fun b => b == c := by
  induction x with
  | nil => exact ⟨0, rfl⟩
  | cons b x ih =>
    by_cases hb : b = c
    · obtain ⟨j, hj⟩ := ih
      refine ⟨j + 1, ?_⟩
      rw [List.dropWhile_cons_of_pos (by simpa using hb), rep_succ, List.cons_append, ← hj, hb]
    · refine ⟨0, ?_⟩
      rw [List.dropWhile_cons_of_neg (by simpa using hb)]
      rfl

/-- A sequence is its kept bits with at least one copy of the sign in front: the first bit is never kept. -/
theorem exists_eq_rep_succ_append_keptBits {x : Bits} (hx : x ≠ []) :
    ∃ j, x = rep (sign x) (j + 1) ++ keptBits x := by
  obtain _ | ⟨b, x⟩ := x
  · exact absurd rfl hx
  · obtain ⟨j, hj⟩ := exists_rep_append_dropWhile b x
    refine ⟨j, ?_⟩
    rw [sign_cons, rep_succ, List.cons_append, keptBits, sign_cons, List.dropWhile_cons_of_pos (by simp), ← hj]

/-- The signed value by the sign and the kept bits. -/
theorem sval_eq_keptBits {x : Bits} (hx : x ≠ []) :
    sval x = (uval (keptBits x) : Int) - (sign x).toNat * 2 ^ (keptBits x).length := by
  obtain ⟨j, hj⟩ := exists_eq_rep_succ_append_keptBits hx
  calc sval x = sval (rep (sign x) (j + 1) ++ keptBits x) := congrArg sval hj
    _ = _ := sval_rep_succ_append _ _ _

/-- The first kept bit is not the sign. -/
theorem ne_sign_of_keptBits_eq_cons {x y : Bits} {b : Bool} (h : keptBits x = b :: y) : b ≠ sign x := by
  have hb := List.head?_dropWhile_not (fun b => b == sign x) x
  rw [← keptBits, h] at hb
  simpa using hb

/-- A width that holds the value has room for the kept bits and one sign bit. -/
theorem length_keptBits_lt {x : Bits} (hx : x ≠ []) {L : Nat} (hL : 1 ≤ L) (hlow : -(2 ^ (L - 1) : Int) ≤ sval x)
    (hhigh : sval x < 2 ^ (L - 1)) : (keptBits x).length < L := by
  cases hk : keptBits x with
  | nil => exact hL
  | cons b y =>
    have hval := sval_eq_keptBits hx
    have hne := ne_sign_of_keptBits_eq_cons hk
    have hy : (uval y : Int) < 2 ^ y.length := by exact_mod_cast uval_lt y
    have hpow : (2 : Int) ^ y.length < 2 ^ (L - 1) := by
      rw [hk, uval_cons, List.length_cons, pow_succ] at hval
      cases hs : sign x with
      | false =>
        obtain rfl : b = true := by simpa [hs] using hne
        simp [hs] at hval
        omega
      | true =>
        obtain rfl : b = false := by simpa [hs] using hne
        simp [hs] at hval
        omega
    have hlt := (pow_lt_pow_iff_right₀ (by decide : (1 : Int) < 2)).mp hpow
    rw [List.length_cons]
    omega

/-! ### The least number of words (R78) -/

theorem fitsWords_iff {W : Nat} {v : Int} {n : Nat} :
    fitsWords W v n = true ↔ -(2 ^ (n * W - 1) : Int) ≤ v ∧ v < 2 ^ (n * W - 1) := by simp [fitsWords]

/-- The numbers of words that hold `v`. -/
def wordCounts (W : Nat) (v : Int) : Set Nat := {n | 1 ≤ n ∧ fitsWords W v n = true}

/-- The search finds the least number from `n` on, when the last one it may reach holds `v`. -/
theorem leastWordsFrom_isLeast {W : Nat} {v : Int} (fuel n : Nat) (h : fitsWords W v (n + fuel) = true) :
    IsLeast {m | n ≤ m ∧ fitsWords W v m = true} (leastWordsFrom W v fuel n) := by
  induction fuel generalizing n with
  | zero => exact ⟨⟨le_rfl, h⟩, fun _ ⟨hm, _⟩ => hm⟩
  | succ fuel ih =>
    rw [leastWordsFrom]
    split
    · next hn => exact ⟨⟨le_rfl, hn⟩, fun _ ⟨hm, _⟩ => hm⟩
    · next hn =>
      obtain ⟨⟨hle, hfit⟩, hleast⟩ := ih (n + 1) (by rwa [Nat.add_right_comm])
      refine ⟨⟨Nat.le_of_succ_le hle, hfit⟩, fun m ⟨hnm, hm⟩ => hleast ⟨?_, hm⟩⟩
      have hne : n ≠ m := fun e => hn (e ▸ hm)
      exact Nat.lt_of_le_of_ne hnm hne

/-- `|v| + 1` words hold `v`: the fuel of `leastWords` is enough. -/
theorem fitsWords_natAbs {W : Nat} (hW : 2 ≤ W) (v : Int) : fitsWords W v (1 + v.natAbs) = true := by
  have hexp : v.natAbs ≤ (1 + v.natAbs) * W - 1 := by
    have := Nat.mul_le_mul_left (1 + v.natAbs) hW
    omega
  have hlt : v.natAbs < 2 ^ ((1 + v.natAbs) * W - 1) :=
    Nat.lt_two_pow_self.trans_le (Nat.pow_le_pow_right Nat.two_pos hexp)
  have hlt' : (v.natAbs : Int) < 2 ^ ((1 + v.natAbs) * W - 1) := by exact_mod_cast hlt
  rw [fitsWords_iff]
  omega

theorem leastWords_isLeast {W : Nat} (hW : 2 ≤ W) (v : Int) : IsLeast (wordCounts W v) (leastWords W v) :=
  leastWordsFrom_isLeast _ _ (fitsWords_natAbs hW v)

/-! ### The canonical form (R78) -/

theorem sval_modEq_uval (x : Bits) : sval x ≡ uval x [ZMOD 2 ^ x.length] := by
  rw [Int.modEq_iff_dvd, sval, sub_sub_cancel]
  split
  · exact dvd_rfl
  · exact dvd_zero _

/-- A value in the range of `L` bits is the signed value of its `L`-bit sequence: both lie in one range of `2^L` numbers. -/
theorem sval_bitsOf {L : Nat} {v : Int} (hL : 1 ≤ L) (hlow : -(2 ^ (L - 1) : Int) ≤ v) (hhigh : v < 2 ^ (L - 1)) :
    sval (bitsOf L v) = v := by
  have hne : bitsOf L v ≠ [] := by
    rw [← List.length_pos_iff, length_bitsOf]
    exact hL
  obtain ⟨hl, hh⟩ := sval_range hne
  have hmod := sval_modEq_uval (bitsOf L v)
  rw [length_bitsOf] at hl hh hmod
  rw [uval_bitsOf] at hmod
  have hpow : (2 : Int) ^ L = 2 * 2 ^ (L - 1) := by rw [← pow_succ', Nat.sub_add_cancel hL]
  have hdvd : (2 : Int) ^ L ∣ v - sval (bitsOf L v) := (hmod.trans (Int.mod_modEq v _)).dvd
  have hzero := Int.eq_zero_of_abs_lt_dvd hdvd (abs_lt.mpr ⟨by omega, by omega⟩)
  omega

theorem length_canon (W : Nat) (v : Int) : (canon W v).length = leastWords W v * W := length_bitsOf _ _

theorem sval_canon {W : Nat} (hW : 2 ≤ W) (v : Int) : sval (canon W v) = v := by
  obtain ⟨⟨hn, hfit⟩, -⟩ := leastWords_isLeast hW v
  obtain ⟨hlow, hhigh⟩ := fitsWords_iff.mp hfit
  exact sval_bitsOf (Nat.mul_pos hn (by omega)) hlow hhigh

/-! ### The compact form (R77, R78) -/

theorem compact_ne_nil {W : Nat} (hW : 0 < W) (x : Bits) : compact W x ≠ [] := (aligned_compact hW x).1

/-- R77 keeps at least one copy of the sign, so the value stays. -/
theorem sval_compact {W : Nat} (hW : 0 < W) {x : Bits} (hx : x ≠ []) : sval (compact W x) = sval x := by
  obtain ⟨k, hk⟩ := Nat.exists_eq_add_of_lt (Nat.mod_lt (keptBits x).length hW)
  have hpad : W - (keptBits x).length % W = k + 1 := by omega
  rw [compact, hpad, sval_rep_succ_append, ← sval_eq_keptBits hx]

/-- The number of words of the compact form. -/
def compactWords (W : Nat) (x : Bits) : Nat := (keptBits x).length / W + 1

theorem length_compact_eq_words {W : Nat} (hW : 0 < W) (x : Bits) : (compact W x).length = compactWords W x * W := by
  have hmod := Nat.mod_lt (keptBits x).length hW
  have hdiv := Nat.div_add_mod' (keptBits x).length W
  rw [length_compact, compactWords, Nat.succ_mul]
  omega

/-- The kept bits and one sign bit need exactly the words that `compact` gives. -/
theorem compactWords_isLeast {W : Nat} (hW : 0 < W) {x : Bits} (hx : x ≠ []) :
    IsLeast (wordCounts W (sval x)) (compactWords W x) := by
  refine ⟨⟨Nat.succ_pos _, ?_⟩, fun m ⟨hm, hfit⟩ => ?_⟩
  · have hrange := sval_range (compact_ne_nil hW x)
    rwa [sval_compact hW hx, length_compact_eq_words hW, ← fitsWords_iff] at hrange
  · obtain ⟨hlow, hhigh⟩ := fitsWords_iff.mp hfit
    exact Nat.div_lt_of_lt_mul (Nat.mul_comm m W ▸ length_keptBits_lt hx (Nat.mul_pos hm hW) hlow hhigh)

theorem compact_eq_canon {W : Nat} (hW : 2 ≤ W) {x : Bits} (hx : x ≠ []) : compact W x = canon W (sval x) := by
  have hW0 : 0 < W := Nat.lt_of_lt_of_le Nat.two_pos hW
  have hwords : compactWords W x = leastWords W (sval x) := (compactWords_isLeast hW0 hx).unique (leastWords_isLeast hW _)
  refine sval_inj ?_ ?_
  · rw [length_compact_eq_words hW0, length_canon, hwords]
  · rw [sval_compact hW0 hx, sval_canon hW]

theorem sign_rep (c : Bool) {k : Nat} (hk : 0 < k) : sign (rep c k) = c := by
  obtain ⟨k, rfl⟩ := Nat.exists_eq_succ_of_ne_zero hk.ne'
  rfl

/-- R77, "every bit equals the sign": one word of the sign is compact. -/
theorem compact_rep_word {W : Nat} (hW : 0 < W) (c : Bool) : compact W (rep c W) = rep c W := by
  have hkept : keptBits (rep c W) = [] := by
    rw [keptBits, sign_rep c hW]
    simp [rep]
  simp [compact, hkept, sign_rep c hW]

/-- One word of zeros for 0 and one word of ones for -1. -/
theorem canon_neg_toNat {W : Nat} (hW : 2 ≤ W) (c : Bool) : canon W (-c.toNat) = rep c W := by
  have hW0 : 0 < W := Nat.lt_of_lt_of_le Nat.two_pos hW
  have hne : rep c W ≠ [] := List.ne_nil_of_length_pos (by rwa [length_rep])
  rw [← sval_rep c hW0, ← compact_eq_canon hW hne, compact_rep_word hW0]

end Sys2Proof.Machine

namespace Sys2Proof.Proofs

open Machine

/-- Settles O11: more copies of the sign change no signed value (`sval_widen`), and the unsigned value is the signed one plus
`2^len` for a negative sequence only. -/
theorem widenValue : Obligations.WidenValue := by
  intro x L hx hL
  have hlen : (widen x L).length = L := by rw [length_widen, Nat.sub_add_cancel hL]
  have hne := widen_ne_nil hx L
  refine ⟨rfl, hlen, sval_widen hx L, widen_self x, fun h => ?_, fun h => ?_⟩
  · have hw := uval_of_sval_nonneg hne ((sval_widen hx L).symm ▸ h)
    rw [sval_widen hx, ← uval_of_sval_nonneg hx h] at hw
    exact_mod_cast hw
  · have hw := uval_of_sval_neg hne ((sval_widen hx L).symm ▸ h)
    rw [sval_widen hx, hlen] at hw
    rw [hw, uval_of_sval_neg hx h]
    ring

/-- Settles O12: `compact` gives the least number of words (`compactWords_isLeast`), so it is the canonical form of the
signed value (`compact_eq_canon`), from which it is idempotent and depends on the signed value only. -/
theorem compactCanonical : Obligations.CompactCanonical := by
  intro W x hW hx
  have hW0 : 0 < W := Nat.lt_of_lt_of_le Nat.two_pos hW
  obtain ⟨⟨hn, hfit⟩, hleast⟩ := compactWords_isLeast hW0 hx
  refine ⟨sval_compact hW0 hx,
    ⟨compactWords W x, hn, length_compact_eq_words hW0 x, fitsWords_iff.mp hfit,
      fun m hm hlow hhigh => hleast ⟨hm, fitsWords_iff.mpr ⟨hlow, hhigh⟩⟩⟩, ?_, fun y hy hxy => ?_,
    compact_eq_canon hW hx, ?_, ?_⟩
  · rw [compact_eq_canon hW (compact_ne_nil hW0 x), sval_compact hW0 hx, ← compact_eq_canon hW hx]
  · rw [compact_eq_canon hW hy, hxy, ← compact_eq_canon hW hx]
  · exact canon_neg_toNat hW false
  · exact canon_neg_toNat hW true

end Sys2Proof.Proofs

/-! Family `41_addsub.md`: the values of negation (O13), of the adder (O14) and of the subtractor (O15). Each unit is the
sequence of an integer modulo a power of two; when that integer is in range, it is the signed value. -/

namespace Sys2Proof.Machine

/-! ### Sequences of congruent numbers (R11) -/

theorem bitsOf_congr {L : Nat} {v w : Int} (h : v ≡ w [ZMOD 2 ^ L]) : bitsOf L v = bitsOf L w := by
  rw [bitsOf, bitsOf, h.eq]

/-- A sequence is the one of its own signed value. -/
theorem bitsOf_sval (x : Bits) : bitsOf x.length (sval x) = x := by
  have hlt : (uval x : Int) < 2 ^ x.length := by exact_mod_cast uval_lt x
  have hval : (uval (bitsOf x.length (sval x)) : Int) = uval x := by
    rw [uval_bitsOf, (sval_modEq_uval x).eq, Int.emod_eq_of_lt (Int.natCast_nonneg _) hlt]
  exact uval_inj (length_bitsOf _ _) (by exact_mod_cast hval)

theorem sval_bitsOf_modEq (L : Nat) (v : Int) : sval (bitsOf L v) ≡ v [ZMOD 2 ^ L] := by
  have h := sval_modEq_uval (bitsOf L v)
  rw [length_bitsOf, uval_bitsOf] at h
  exact h.trans (Int.mod_modEq v _)

theorem two_pow_eq_two_mul {L : Nat} (hL : 0 < L) : (2 : Int) ^ L = 2 * 2 ^ (L - 1) := by
  rw [← pow_succ', Nat.sub_add_cancel hL]

theorem sval_eq_uval_sub_sign (x : Bits) : sval x = (uval x : Int) - (sign x).toNat * 2 ^ x.length := by
  cases h : sign x <;> simp [sval, h]

/-- A longer width holds the value too: `sval_range` of the widened sequence. -/
theorem sval_range_of_length_le {x : Bits} (hx : x ≠ []) {L : Nat} (hL : x.length ≤ L) :
    -(2 ^ (L - 1) : Int) ≤ sval x ∧ sval x < 2 ^ (L - 1) := by
  have hrange := sval_range (widen_ne_nil hx L)
  rwa [sval_widen hx, length_widen, Nat.sub_add_cancel hL] at hrange

/-! ### Negation (R95, R96) -/

/-- R95 in numbers: the inverted bits plus 1 are `2^len` minus the unsigned value. -/
theorem negate_eq_bitsOf_sub_uval (x : Bits) : negate x = bitsOf x.length (2 ^ x.length - (uval x : Int)) := by
  have hinv : (uval (inv x) : Int) + uval x + 1 = 2 ^ x.length := by exact_mod_cast uval_inv x
  rw [negate, ← hinv]
  congr 1
  ring

theorem negate_eq_bitsOf_neg_sval (x : Bits) : negate x = bitsOf x.length (-sval x) := by
  rw [negate_eq_bitsOf_sub_uval]
  refine bitsOf_congr ?_
  simpa using Int.modulus_modEq_zero.sub (sval_modEq_uval x).symm

theorem negate_negate (x : Bits) : negate (negate x) = x := by
  have hneg : -sval (negate x) ≡ sval x [ZMOD 2 ^ x.length] := by
    simpa [negate_eq_bitsOf_neg_sval x] using (sval_bitsOf_modEq x.length (-sval x)).neg
  rw [negate_eq_bitsOf_neg_sval (negate x), length_negate, bitsOf_congr hneg, bitsOf_sval]

theorem negate_of_sval_eq_zero {x : Bits} (h : sval x = 0) : negate x = x := by
  rw [negate_eq_bitsOf_neg_sval, h, neg_zero, ← h, bitsOf_sval]

/-- R12: the most negative value of its width, by the value. -/
theorem minneg_iff {x : Bits} (hx : x ≠ []) : minneg x = true ↔ sval x = -(2 ^ (x.length - 1) : Int) := by
  have hlen : x.length = (true :: rep false (x.length - 1)).length := by
    rw [List.length_cons, length_rep, Nat.sub_add_cancel (List.length_pos_iff.mpr hx)]
  have hval : sval (true :: rep false (x.length - 1)) = -(2 ^ (x.length - 1) : Int) := by simp [sval_cons]
  rw [minneg, beq_iff_eq, ← hval]
  exact ⟨congrArg sval, sval_inj hlen⟩

/-- R96: `2^(len-1)` and its negative are the same number modulo `2^len`. -/
theorem negate_of_minneg {x : Bits} (hx : x ≠ []) (h : minneg x = true) : negate x = x := by
  have hpow := two_pow_eq_two_mul (List.length_pos_iff.mpr hx)
  have hcong : -sval x ≡ sval x [ZMOD 2 ^ x.length] := by
    rw [Int.modEq_iff_dvd, (minneg_iff hx).mp h, hpow]
    exact ⟨-1, by ring⟩
  rw [negate_eq_bitsOf_neg_sval, bitsOf_congr hcong, bitsOf_sval]

/-- R96: a value other than the most negative one has its negative in range. -/
theorem sval_negate {x : Bits} (hx : x ≠ []) (h : minneg x = false) : sval (negate x) = -sval x := by
  obtain ⟨hlow, hhigh⟩ := sval_range hx
  have hne : sval x ≠ -(2 ^ (x.length - 1) : Int) := fun e => by simp [(minneg_iff hx).mpr e] at h
  rw [negate_eq_bitsOf_neg_sval]
  exact sval_bitsOf (List.length_pos_iff.mpr hx) (by omega) (by omega)

/-- R96: read unsigned, the magnitude of a negative value. -/
theorem uval_negate_of_sval_neg {x : Bits} (hx : x ≠ []) (h : sval x < 0) : (uval (negate x) : Int) = -sval x := by
  obtain ⟨hlow, hhigh⟩ := sval_range hx
  have hpow := two_pow_eq_two_mul (List.length_pos_iff.mpr hx)
  rw [negate_eq_bitsOf_neg_sval, uval_bitsOf, Int.emod_eq_of_lt (by omega) (by omega)]

/-! ### The adder (R97, R98) -/

section Adder

variable {W : Nat} {a b : Bits}

theorem length_rippleSum (a b : Bits) : (rippleSum a b).length = max a.length b.length := length_bitsOf _ _

theorem max_length_pos (ha : a ≠ []) (b : Bits) : 0 < max a.length b.length :=
  lt_max_of_lt_left (List.length_pos_iff.mpr ha)

theorem rippleSum_ne_nil (ha : a ≠ []) (b : Bits) : rippleSum a b ≠ [] := by
  rw [← List.length_pos_iff, length_rippleSum]
  exact max_length_pos ha b

theorem overflowWiden_ne_nil (W : Nat) (a b : Bits) {r : Bits} (hr : r ≠ []) : overflowWiden W a b r ≠ [] := by
  rw [overflowWiden]
  split
  · exact List.append_ne_nil_of_right_ne_nil _ hr
  · exact hr

theorem uval_widen_modEq {x : Bits} (hx : x ≠ []) {L : Nat} (hL : x.length ≤ L) :
    (uval (widen x L) : Int) ≡ sval x [ZMOD 2 ^ L] := by
  have h := (sval_modEq_uval (widen x L)).symm
  rwa [sval_widen hx, length_widen, Nat.sub_add_cancel hL] at h

/-- The widened operands sum to the signed values' sum, up to the dropped carry. -/
theorem rippleSum_eq_bitsOf_add (ha : a ≠ []) (hb : b ≠ []) :
    rippleSum a b = bitsOf (max a.length b.length) (sval a + sval b) :=
  bitsOf_congr ((uval_widen_modEq ha (le_max_left _ _)).add (uval_widen_modEq hb (le_max_right _ _)))

/-- Operands of different signs: the sum is between them, so it fits their width. -/
theorem sval_rippleSum_of_sign_ne (ha : a ≠ []) (hb : b ≠ []) (h : sign a ≠ sign b) :
    sval (rippleSum a b) = sval a + sval b := by
  obtain ⟨hla, hha⟩ := sval_range_of_length_le ha (le_max_left a.length b.length)
  obtain ⟨hlb, hhb⟩ := sval_range_of_length_le hb (le_max_right a.length b.length)
  have hsign : ¬(sval a < 0 ↔ sval b < 0) := by rwa [sval_neg_iff ha, sval_neg_iff hb, ← Bool.eq_iff_iff]
  rw [rippleSum_eq_bitsOf_add ha hb]
  exact sval_bitsOf (max_length_pos ha b) (by omega) (by omega)

/-- Operands of one sign: the sum needs one bit more, which is that sign. -/
theorem uval_rippleSum_of_sign_eq (ha : a ≠ []) (hb : b ≠ []) (h : sign a = sign b) :
    (uval (rippleSum a b) : Int) = sval a + sval b + (sign a).toNat * 2 ^ max a.length b.length := by
  obtain ⟨hla, hha⟩ := sval_range_of_length_le ha (le_max_left a.length b.length)
  obtain ⟨hlb, hhb⟩ := sval_range_of_length_le hb (le_max_right a.length b.length)
  have hpow := two_pow_eq_two_mul (max_length_pos ha b)
  have hna := sval_neg_iff ha
  have hnb := sval_neg_iff hb
  rw [← h] at hnb
  rw [rippleSum_eq_bitsOf_add ha hb, uval_bitsOf]
  cases hs : sign a with
  | false =>
    simp only [hs, Bool.false_eq_true, iff_false] at hna hnb
    rw [Int.emod_eq_of_lt (by omega) (by omega)]
    simp
  | true =>
    simp only [hs, iff_true] at hna hnb
    rw [← Int.add_emod_right, Int.emod_eq_of_lt (by omega) (by omega)]
    simp

/-- R97, step 4 in numbers: for operands of one sign the result is the sum's bits below that sign, whether the sum has the
sign already or gets a word of it. -/
theorem sval_overflowWiden_of_sign_eq (hW : 0 < W) (h : sign a = sign b) (r : Bits) :
    sval (overflowWiden W a b r) = (uval r : Int) - (sign a).toNat * 2 ^ r.length := by
  by_cases hr : sign r = sign a
  · rw [overflowWiden, if_neg (fun ⟨_, hne⟩ => hne hr), sval_eq_uval_sub_sign, hr]
  · obtain ⟨k, rfl⟩ := Nat.exists_eq_succ_of_ne_zero hW.ne'
    rw [overflowWiden, if_pos ⟨h, hr⟩, sval_rep_succ_append]

theorem sval_overflowWiden_rippleSum (hW : 0 < W) (ha : a ≠ []) (hb : b ≠ []) :
    sval (overflowWiden W a b (rippleSum a b)) = sval a + sval b := by
  by_cases h : sign a = sign b
  · rw [sval_overflowWiden_of_sign_eq hW h, uval_rippleSum_of_sign_eq ha hb h, length_rippleSum, add_sub_cancel_right]
  · rw [overflowWiden, if_neg (fun ⟨he, _⟩ => h he), sval_rippleSum_of_sign_ne ha hb h]

theorem addseq_ne_nil (hW : 0 < W) (a b : Bits) : addseq W a b ≠ [] := compact_ne_nil hW _

theorem sval_addseq (hW : 0 < W) (ha : a ≠ []) (hb : b ≠ []) : sval (addseq W a b) = sval a + sval b := by
  rw [addseq, sval_compact hW (overflowWiden_ne_nil W a b (rippleSum_ne_nil ha b)), sval_overflowWiden_rippleSum hW ha hb]

theorem addseq_eq_canon (hW : 2 ≤ W) (ha : a ≠ []) (hb : b ≠ []) : addseq W a b = canon W (sval a + sval b) := by
  have hW0 : 0 < W := Nat.lt_of_lt_of_le Nat.two_pos hW
  rw [addseq, compact_eq_canon hW (overflowWiden_ne_nil W a b (rippleSum_ne_nil ha b)),
    sval_overflowWiden_rippleSum hW0 ha hb]

end Adder

end Sys2Proof.Machine

namespace Sys2Proof.Proofs

open Machine

/-- Settles O13: `negate x` is the sequence of `-sval x` (`negate_eq_bitsOf_neg_sval`), which is in range unless `sval x` is
the most negative value, and then it is the same number modulo `2^len`. -/
theorem negateValue : Obligations.NegateValue := by
  intro W x hW hx
  refine ⟨length_negate x, negate_eq_bitsOf_sub_uval x, negate_of_sval_eq_zero,
    fun h => ⟨negate_of_minneg hx h, (minneg_iff hx).mp h⟩, sval_negate hx, negate_negate x,
    uval_negate_of_sval_neg hx, ?_⟩
  rw [sval_addseq (Nat.lt_of_lt_of_le Nat.two_pos hW) hx (negate_ne_nil hx)]
  cases h : minneg x with
  | false => simp [sval_negate hx h]
  | true => simp [negate_of_minneg hx h, two_mul]

/-- Settles O14: a sum is the canonical form of the integer sum (`addseq_eq_canon`), so the laws are those of the integers. -/
theorem addExact : Obligations.AddExact := by
  intro W a b hW ha hb
  have hW0 : 0 < W := Nat.lt_of_lt_of_le Nat.two_pos hW
  have hzero : zeroWord W ≠ [] := (aligned_zeroWord hW0).1
  refine ⟨sval_addseq hW0 ha hb, addseq_eq_canon hW ha hb, ?_, ?_, fun c hc => ?_⟩
  · rw [addseq_eq_canon hW ha hb, addseq_eq_canon hW hb ha, add_comm]
  · have hval : sval (zeroWord W) = 0 := sval_rep false hW0
    rw [addseq_eq_canon hW ha hzero, hval, add_zero, compact_eq_canon hW ha]
  · rw [addseq_eq_canon hW (addseq_ne_nil hW0 a b) hc, addseq_eq_canon hW ha (addseq_ne_nil hW0 b c),
      sval_addseq hW0 ha hb, sval_addseq hW0 hb hc, add_assoc]

/-- Settles O15: the adder is exact on `negate b`, which has the negated value unless `b` is the most negative one of its
width, and then is `b` itself. -/
theorem subValue : Obligations.SubValue := by
  intro W a b hW ha hb
  have hsub : sval (subseq W a b) = sval a + sval (negate b) :=
    sval_addseq (Nat.lt_of_lt_of_le Nat.two_pos hW) ha (negate_ne_nil hb)
  refine ⟨fun h => ?_, fun h => ?_⟩
  · rw [hsub, sval_negate hb h, sub_eq_add_neg]
  · rw [hsub, negate_of_minneg hb h]

end Sys2Proof.Proofs

/-! Family `42_multiply.md`: the value of the multiplier and its laws (O16). The shift-add loop gives the canonical form of an
integer product, so two products are the same sequence as soon as their values are the same. -/

namespace Sys2Proof.Machine

/-! ### Canonical forms (R78) -/

section Canon

variable {W : Nat}

theorem canon_ne_nil (hW : 2 ≤ W) (v : Int) : canon W v ≠ [] := by
  obtain ⟨⟨hn, -⟩, -⟩ := leastWords_isLeast hW v
  rw [← List.length_pos_iff, length_canon]
  exact Nat.mul_pos hn (Nat.lt_of_lt_of_le Nat.two_pos hW)

theorem canonical_canon (hW : 2 ≤ W) (v : Int) : Canonical W (canon W v) := by
  rw [Canonical, compact_eq_canon hW (canon_ne_nil hW v), sval_canon hW]

theorem canon_inj (hW : 2 ≤ W) {v w : Int} : canon W v = canon W w ↔ v = w :=
  (Function.LeftInverse.injective (sval_canon hW)).eq_iff

theorem zeroWord_eq_canon (hW : 2 ≤ W) : zeroWord W = canon W 0 := (canon_neg_toNat hW false).symm

/-- R141: equal canonical forms are equal signed values. -/
theorem equals_iff_sval_eq (hW : 2 ≤ W) {a b : Bits} (ha : a ≠ []) (hb : b ≠ []) :
    equals W a b = true ↔ sval a = sval b := by
  rw [equals, beq_iff_eq, compact_eq_canon hW ha, compact_eq_canon hW hb, canon_inj hW]

theorem equals_zeroWord_iff (hW : 2 ≤ W) {b : Bits} (hb : b ≠ []) : equals W b (zeroWord W) = true ↔ sval b = 0 := by
  rw [zeroWord_eq_canon hW, equals_iff_sval_eq hW hb (canon_ne_nil hW 0), sval_canon hW]

end Canon

/-! ### The barrel shifter (R110) -/

theorem sval_append {x : Bits} (hx : x ≠ []) (y : Bits) : sval (x ++ y) = sval x * 2 ^ y.length + uval y := by
  obtain _ | ⟨b, x⟩ := x
  · exact absurd rfl hx
  · rw [List.cons_append, sval_cons, sval_cons, uval_append, List.length_append, pow_add]
    push_cast
    ring

theorem shl_ne_nil {x : Bits} (hx : x ≠ []) (k : Nat) : shl x k ≠ [] := List.append_ne_nil_of_left_ne_nil hx _

theorem sval_shl {x : Bits} (hx : x ≠ []) (k : Nat) : sval (shl x k) = sval x * 2 ^ k := by
  simp [shl, sval_append hx]

/-! ### The shift-add multiplier (R111, R112) -/

section Multiplier

variable {W : Nat} {a b : Bits}

/-- R111, step 4: the loop adds the multiplicand once for every unit of the bits still to be scanned, which come least
significant first. -/
theorem mulLoop_eq_canon (hW : 2 ≤ W) (bits : Bits) (v : Int) {sh : Bits} (hsh : sh ≠ []) :
    mulLoop W bits (canon W v) sh = canon W (v + sval sh * uval bits.reverse) := by
  induction bits generalizing v sh with
  | nil => simp [mulLoop]
  | cons c rest ih =>
    have hstep : (if c then addseq W (canon W v) sh else canon W v) = canon W (v + sval sh * c.toNat) := by
      cases c with
      | false => simp
      | true => simp [addseq_eq_canon hW (canon_ne_nil hW v) hsh, sval_canon hW]
    have huval : uval (c :: rest).reverse = uval rest.reverse * 2 + c.toNat := by
      simp [List.reverse_cons, uval_append]
    rw [mulLoop, hstep, ih _ (shl_ne_nil hsh 1), sval_shl hsh, huval]
    congr 1
    push_cast
    ring

/-- The whole loop: every bit of the multiplier scanned as an unsigned number, from the sum 0. -/
theorem mulLoop_reverse_eq_canon (hW : 2 ≤ W) (b : Bits) {sh : Bits} (hsh : sh ≠ []) :
    mulLoop W b.reverse (zeroWord W) sh = canon W (sval sh * uval b) := by
  rw [zeroWord_eq_canon hW, mulLoop_eq_canon hW _ _ hsh, List.reverse_reverse, zero_add]

theorem mulseq_of_sval_nonneg (hW : 2 ≤ W) (ha : a ≠ []) (hb : b ≠ []) (h : 0 ≤ sval b) :
    mulseq W a b = canon W (sval a * sval b) := by
  have hsign : sign b ≠ true := fun hs => h.not_gt ((sval_neg_iff hb).mpr hs)
  by_cases hzero : equals W b (zeroWord W) = true
  · rw [mulseq, if_pos hzero, (equals_zeroWord_iff hW hb).mp hzero, mul_zero, zeroWord_eq_canon hW]
  · rw [mulseq, if_neg hzero, if_neg hsign, mulLoop_reverse_eq_canon hW b ha, uval_of_sval_nonneg hb h]

/-- The sign of the multiplier moves onto the multiplicand; the multiplier's magnitude is right even when it is the most
negative value of its width. -/
theorem mulseq_of_sval_neg (hW : 2 ≤ W) (ha : a ≠ []) (hb : b ≠ []) (h : sval b < 0) :
    mulseq W a b = canon W (sval (negate a) * -sval b) := by
  have hzero : equals W b (zeroWord W) ≠ true := fun he => h.ne ((equals_zeroWord_iff hW hb).mp he)
  rw [mulseq, if_neg hzero, if_pos ((sval_neg_iff hb).mp h), mulLoop_reverse_eq_canon hW _ (negate_ne_nil ha),
    uval_negate_of_sval_neg hb h]

/-- R112, the first three rows: the exact product. -/
theorem mulseq_eq_canon (hW : 2 ≤ W) (ha : a ≠ []) (hb : b ≠ []) (h : MulExact a b) :
    mulseq W a b = canon W (sval a * sval b) := by
  obtain hnonneg | hneg := le_or_gt 0 (sval b)
  · exact mulseq_of_sval_nonneg hW ha hb hnonneg
  · have hmin : minneg a = false := Bool.eq_false_iff.mpr fun hm => h ⟨hm, hneg⟩
    rw [mulseq_of_sval_neg hW ha hb hneg, sval_negate ha hmin, neg_mul_neg]

/-- R112, the fourth row: `negate` leaves the multiplicand as it is, so the sign is wrong. -/
theorem mulseq_eq_canon_neg (hW : 2 ≤ W) (ha : a ≠ []) (hb : b ≠ []) (hmin : minneg a = true) (hneg : sval b < 0) :
    mulseq W a b = canon W (-(sval a * sval b)) := by
  rw [mulseq_of_sval_neg hW ha hb hneg, negate_of_minneg ha hmin, mul_neg]

theorem sval_mulseq (hW : 2 ≤ W) (ha : a ≠ []) (hb : b ≠ []) (h : MulExact a b) :
    sval (mulseq W a b) = sval a * sval b := by
  rw [mulseq_eq_canon hW ha hb h, sval_canon hW]

theorem sval_mulseq_of_minneg (hW : 2 ≤ W) (ha : a ≠ []) (hb : b ≠ []) (hmin : minneg a = true) (hneg : sval b < 0) :
    sval (mulseq W a b) = -(sval a * sval b) := by
  rw [mulseq_eq_canon_neg hW ha hb hmin hneg, sval_canon hW]

theorem mulExact_of_sval_nonneg (h : 0 ≤ sval b) : MulExact a b := fun ⟨_, hneg⟩ => h.not_gt hneg

theorem mulExact_of_not_minneg (h : minneg a = false) : MulExact a b := fun ⟨hmin, _⟩ => by simp [h] at hmin

/-- R112: a multiplicand 0 is not the most negative value of its width, so it is never in the fourth row. -/
theorem mulExact_of_sval_eq_zero (ha : a ≠ []) (h : sval a = 0) : MulExact a b := fun ⟨hmin, _⟩ => by
  simp [(minneg_iff ha).mp hmin] at h

theorem mulseq_ne_nil (hW : 2 ≤ W) (a b : Bits) : mulseq W a b ≠ [] :=
  (aligned_mulseq (Nat.lt_of_lt_of_le Nat.two_pos hW) a b).1

/-- R112: the product is canonical in every row. -/
theorem canonical_mulseq (hW : 2 ≤ W) (ha : a ≠ []) (hb : b ≠ []) : Canonical W (mulseq W a b) := by
  obtain hnonneg | hneg := le_or_gt 0 (sval b)
  · rw [mulseq_of_sval_nonneg hW ha hb hnonneg]
    exact canonical_canon hW _
  · rw [mulseq_of_sval_neg hW ha hb hneg]
    exact canonical_canon hW _

/-! ### The laws outside the fourth row (R112) -/

theorem mulseq_comm (hW : 2 ≤ W) (ha : a ≠ []) (hb : b ≠ []) (hab : MulExact a b) (hba : MulExact b a) :
    mulseq W a b = mulseq W b a := by
  rw [mulseq_eq_canon hW ha hb hab, mulseq_eq_canon hW hb ha hba, mul_comm]

theorem mulseq_assoc (hW : 2 ≤ W) {c : Bits} (ha : a ≠ []) (hb : b ≠ []) (hc : c ≠ []) (hab : MulExact a b)
    (hab_c : MulExact (mulseq W a b) c) (hbc : MulExact b c) (ha_bc : MulExact a (mulseq W b c)) :
    mulseq W (mulseq W a b) c = mulseq W a (mulseq W b c) := by
  rw [mulseq_eq_canon hW (mulseq_ne_nil hW a b) hc hab_c, mulseq_eq_canon hW ha (mulseq_ne_nil hW b c) ha_bc,
    sval_mulseq hW ha hb hab, sval_mulseq hW hb hc hbc, mul_assoc]

theorem mulseq_addseq (hW : 2 ≤ W) {c : Bits} (ha : a ≠ []) (hb : b ≠ []) (hc : c ≠ []) (hab : MulExact a b)
    (hac : MulExact a c) (ha_sum : MulExact a (addseq W b c)) :
    mulseq W a (addseq W b c) = addseq W (mulseq W a b) (mulseq W a c) := by
  have hW0 : 0 < W := Nat.lt_of_lt_of_le Nat.two_pos hW
  rw [mulseq_eq_canon hW ha (addseq_ne_nil hW0 b c) ha_sum, sval_addseq hW0 hb hc,
    addseq_eq_canon hW (mulseq_ne_nil hW a b) (mulseq_ne_nil hW a c), sval_mulseq hW ha hb hab,
    sval_mulseq hW ha hc hac, mul_add]

end Multiplier

end Sys2Proof.Machine

namespace Sys2Proof.Proofs

open Machine

/-- Settles O16: outside the fourth row a product is the canonical form of the integer product (`mulseq_eq_canon`), so the
laws are those of the integers; in the fourth row it is the canonical form of its negative. -/
theorem mulValue : Obligations.MulValue := by
  intro W a b hW ha hb
  have hexact : MulExact a b → sval (mulseq W a b) = sval a * sval b := sval_mulseq hW ha hb
  refine ⟨fun h => ?_, fun h => hexact (mulExact_of_sval_nonneg h.le), fun _ hmin => hexact (mulExact_of_not_minneg hmin),
    fun hneg hmin => sval_mulseq_of_minneg hW ha hb hmin hneg, fun h => ?_, canonical_mulseq hW ha hb,
    mulseq_comm hW ha hb, fun c hc => ⟨mulseq_assoc hW ha hb hc, mulseq_addseq hW ha hb hc⟩⟩
  · rw [hexact (mulExact_of_sval_nonneg h.ge), h, mul_zero]
  · rw [hexact (mulExact_of_sval_eq_zero ha h), h, zero_mul]

end Sys2Proof.Proofs

/-! Family `43_divide.md`: the magnitudes of the divider (O17), the long-division engine (O18) and the value of the quotient
(O19). The engine keeps R123's invariant: the dividend bits taken in so far are the quotient so far times the divisor plus
the window, and the window is below the divisor. -/

namespace Sys2Proof.Machine

/-! ### Leading zeros removed (R11) -/

theorem uval_strip0 (x : Bits) : uval (strip0 x) = uval x := by
  obtain ⟨j, hj⟩ := exists_rep_append_dropWhile false x
  calc uval (strip0 x) = uval (rep false j ++ strip0 x) := by simp [uval_append]
    _ = uval x := congrArg uval hj.symm

theorem head?_strip0 {x : Bits} (h : strip0 x ≠ []) : (strip0 x).head? = some true := by
  have hb := List.head?_dropWhile_not (fun b => b == false) x
  obtain ⟨b, y, hy⟩ := List.exists_cons_of_ne_nil h
  rw [← strip0, hy] at hb
  rw [hy]
  simpa using hb

/-- A sequence that starts with 1 is at least that bit's weight. -/
theorem two_pow_le_uval {x : Bits} (h : x.head? = some true) : 2 ^ (x.length - 1) ≤ uval x := by
  obtain ⟨y, rfl⟩ := List.head?_eq_some_iff.mp h
  simp

theorem uval_pos {x : Bits} (h : x.head? = some true) : 0 < uval x :=
  (Nat.two_pow_pos _).trans_le (two_pow_le_uval h)

/-! ### Magnitudes (R121) -/

theorem sval_eq_zero_iff {x : Bits} (hx : x ≠ []) : sval x = 0 ↔ ∀ b ∈ x, b = false := by
  have hzero : sval (rep false x.length) = 0 := sval_rep false (List.length_pos_iff.mpr hx)
  calc sval x = 0 ↔ x = rep false x.length := by
        rw [← hzero]
        exact ⟨sval_inj (length_rep _ _).symm, congrArg sval⟩
    _ ↔ ∀ b ∈ x, b = false := by simp [rep, List.eq_replicate_iff]

theorem uval_mag {x : Bits} (hx : x ≠ []) : uval (mag x) = (sval x).natAbs := by
  have hsign := sval_neg_iff hx
  rw [mag, uval_strip0]
  split
  · next h =>
    have := uval_negate_of_sval_neg hx (hsign.mpr h)
    omega
  · next h =>
    have hnonneg : 0 ≤ sval x := not_lt.mp (mt hsign.mp h)
    have := uval_of_sval_nonneg hx hnonneg
    omega

theorem head?_mag {x : Bits} (h : mag x ≠ []) : (mag x).head? = some true := head?_strip0 h

theorem mag_eq_nil_iff {x : Bits} (hx : x ≠ []) : mag x = [] ↔ sval x = 0 := by
  rw [← Int.natAbs_eq_zero, ← uval_mag hx]
  exact ⟨congrArg uval, fun h => not_not.mp fun hne => (uval_pos (head?_mag hne)).ne' h⟩

theorem head?_mag_of_sval_ne_zero {x : Bits} (hx : x ≠ []) (h : sval x ≠ 0) : (mag x).head? = some true :=
  head?_mag (mt (mag_eq_nil_iff hx).mp h)

/-! ### The long-division engine (R122, R123) -/

theorem uval_bitsOf_of_lt {L : Nat} {v : Int} (h0 : 0 ≤ v) (h : v < 2 ^ L) : (uval (bitsOf L v) : Int) = v := by
  rw [uval_bitsOf, Int.emod_eq_of_lt h0 h]

theorem uval_append_singleton (x : Bits) (c : Bool) : uval (x ++ [c]) = 2 * uval x + c.toNat := by
  rw [uval_append]
  simp [mul_comm]

/-- R123's invariant: what the quotient so far and the window say of the dividend bits taken in. -/
def Divided (B taken q win : Bits) : Prop := uval taken = uval q * uval B + uval win ∧ uval win < uval B

section Engine

variable {B taken q win : Bits}

/-- The window is wide enough for the next dividend bit. -/
theorem uval_shiftIn (h : uval win < uval B) (c : Bool) : uval (shiftIn B win c) = 2 * uval win + c.toNat := by
  have hB := uval_lt B
  have hc := Bool.toNat_le c
  have hlt : 2 * uval win + c.toNat < 2 ^ (B.length + 1) := by omega
  have hval : (uval (shiftIn B win c) : Int) = 2 * (uval win : Int) + c.toNat :=
    uval_bitsOf_of_lt (by omega) (by exact_mod_cast hlt)
  exact_mod_cast hval

/-- R122, emit 0: the window with the next bit is still below the divisor. -/
theorem Divided.emit_false (h : Divided B taken q win) {c : Bool} (hlt : uval (shiftIn B win c) < uval B) :
    Divided B (taken ++ [c]) (q ++ [false]) (shiftIn B win c) := by
  obtain ⟨heq, hwin⟩ := h
  refine ⟨?_, hlt⟩
  rw [uval_append_singleton, uval_append_singleton, uval_shiftIn hwin, heq, Bool.toNat_false]
  ring

/-- R122, emit 1: the divisor goes into the window once, as the window was below it before the bit came in. -/
theorem Divided.emit_true (h : Divided B taken q win) {c : Bool} (hle : uval B ≤ uval (shiftIn B win c)) :
    Divided B (taken ++ [c]) (q ++ [true]) (bitsOf (B.length + 1) ((uval (shiftIn B win c) : Int) - uval B)) := by
  obtain ⟨heq, hwin⟩ := h
  have hshift := uval_shiftIn hwin c
  have hc := Bool.toNat_le c
  have hB : (uval B : Int) < 2 ^ B.length := by exact_mod_cast uval_lt B
  have hsub := uval_bitsOf_of_lt (L := B.length + 1) (v := (uval (shiftIn B win c) : Int) - uval B) (by omega) (by omega)
  refine ⟨?_, by omega⟩
  rw [uval_append_singleton, uval_append_singleton, heq, Bool.toNat_true]
  zify
  rw [hsub, hshift]
  push_cast
  ring

/-- R123: the loop keeps the invariant over the bits still to come. -/
theorem Divided.after_divLoop (h : Divided B taken q win) (rest : Bits) :
    Divided B (taken ++ rest) (divLoop B rest q win).1 (divLoop B rest q win).2 := by
  induction rest generalizing taken q win with
  | nil => rwa [List.append_nil]
  | cons c rest ih =>
    rw [List.append_cons, divLoop]
    split
    · next hlt => exact ih (h.emit_false (of_decide_eq_true hlt))
    · next hge => exact ih (h.emit_true (not_lt.mp fun hlt => hge (decide_eq_true hlt)))

theorem length_divLoop_quotient (B rest q win : Bits) : (divLoop B rest q win).1.length = q.length + rest.length := by
  induction rest generalizing q win with
  | nil => rfl
  | cons c rest ih =>
    rw [divLoop]
    split <;> rw [ih, List.length_append, List.length_singleton, List.length_cons, Nat.add_assoc, Nat.add_comm 1]

theorem length_divLoop_window (rest q : Bits) (h : win.length = B.length + 1) :
    (divLoop B rest q win).2.length = B.length + 1 := by
  induction rest generalizing q win with
  | nil => exact h
  | cons c rest ih =>
    rw [divLoop]
    split <;> exact ih _ (length_bitsOf _ _)

/-- R122: the priming bits are fewer than the divisor's, so no quotient bit is due for them. -/
theorem divided_prime (A : Bits) (hB : B.head? = some true) :
    Divided B (A.take (primeLength A B)) [] (bitsOf (B.length + 1) (uval (A.take (primeLength A B)))) := by
  have hlen : (A.take (primeLength A B)).length ≤ B.length - 1 := by
    rw [List.length_take, primeLength]
    omega
  have hlt : uval (A.take (primeLength A B)) < uval B :=
    calc uval (A.take (primeLength A B)) < 2 ^ (A.take (primeLength A B)).length := uval_lt _
      _ ≤ 2 ^ (B.length - 1) := Nat.pow_le_pow_right Nat.two_pos hlen
      _ ≤ uval B := two_pow_le_uval hB
  have hfit : uval (A.take (primeLength A B)) < 2 ^ (B.length + 1) := by
    have := uval_lt B
    omega
  have hwin := uval_bitsOf_of_lt (Int.natCast_nonneg _) (by exact_mod_cast hfit)
  rw [Nat.cast_inj] at hwin
  exact ⟨by rw [hwin, uval_nil, zero_mul, zero_add], by rwa [hwin]⟩

theorem divided_longdiv (A : Bits) (hB : B.head? = some true) : Divided B A (longdiv A B).1 (longdiv A B).2 := by
  have h := (divided_prime A hB).after_divLoop (A.drop (primeLength A B))
  rwa [List.take_append_drop] at h

/-- R123: the invariant at the end of the dividend is the division with remainder. -/
theorem uval_longdiv (A : Bits) (hB : B.head? = some true) :
    uval (longdiv A B).1 = uval A / uval B ∧ uval (longdiv A B).2 = uval A % uval B := by
  obtain ⟨heq, hlt⟩ := divided_longdiv A hB
  rw [mul_comm, add_comm] at heq
  obtain ⟨hq, hr⟩ := (Nat.div_mod_unique (uval_pos hB)).mpr ⟨heq.symm, hlt⟩
  exact ⟨hq.symm, hr.symm⟩

end Engine

/-! ### The quotient (R124, R125) -/

theorem applySign_ne_nil (s : Bool) (q : Bits) : applySign s q ≠ [] := by
  cases s with
  | false => exact List.cons_ne_nil _ _
  | true => exact negate_ne_nil (List.cons_ne_nil _ _)

/-- R124, step 6: with a 0 sign bit in front, a magnitude is never the most negative value, so its negative is exact. -/
theorem sval_applySign (s : Bool) (q : Bits) : sval (applySign s q) = if s then -(uval q : Int) else uval q := by
  have hq : sval (false :: q) = uval q := by simp [sval_cons]
  cases s with
  | false => exact hq
  | true =>
    have hmin : minneg (false :: q) = false := by simp [minneg]
    rw [applySign, if_pos rfl, if_pos rfl, sval_negate (List.cons_ne_nil _ _) hmin, hq]

theorem sign_sval {x : Bits} (hx : x ≠ []) (h : sval x ≠ 0) : (sval x).sign = if sign x then -1 else 1 := by
  have hsign := sval_neg_iff hx
  split
  · next hs => exact Int.sign_eq_neg_one_of_neg (hsign.mpr hs)
  · next hs => exact Int.sign_eq_one_of_pos (lt_of_le_of_ne (not_lt.mp (mt hsign.mp hs)) h.symm)

/-- Truncated division by signs and magnitudes. -/
theorem tdiv_eq_sign_mul_natAbs (a b : Int) : a.tdiv b = a.sign * b.sign * ((a.natAbs / b.natAbs : Nat) : Int) := by
  have habs : (a.tdiv b).natAbs = a.natAbs / b.natAbs := Int.natAbs_tdiv a b
  rw [← Int.sign_mul_natAbs (a.tdiv b), habs, Int.sign_tdiv]
  split
  · next hlt => simp [Nat.div_eq_of_lt hlt]
  · rfl

section Quotient

variable {W : Nat} {a b : Bits}

/-- The engine's quotient with the result's sign is the truncated quotient. -/
theorem sval_applySign_longdiv (ha : a ≠ []) (hb : b ≠ []) (ha0 : sval a ≠ 0) (hb0 : sval b ≠ 0) :
    sval (applySign (sign a ^^ sign b) (longdiv (mag a) (mag b)).1) = (sval a).tdiv (sval b) := by
  obtain ⟨hq, -⟩ := uval_longdiv (mag a) (head?_mag_of_sval_ne_zero hb hb0)
  rw [sval_applySign, hq, uval_mag ha, uval_mag hb, tdiv_eq_sign_mul_natAbs, sign_sval ha ha0, sign_sval hb hb0]
  cases sign a <;> cases sign b <;> simp

/-- R125: a non-zero divisor gives the canonical form of the truncated quotient. -/
theorem divseq_eq_canon (hW : 2 ≤ W) (ha : a ≠ []) (hb : b ≠ []) (hb0 : sval b ≠ 0) :
    divseq W a b = .ok (canon W ((sval a).tdiv (sval b))) := by
  rw [divseq, if_neg (mt (equals_zeroWord_iff hW hb).mp hb0)]
  split
  · next hzero => rw [(equals_zeroWord_iff hW ha).mp hzero, Int.zero_tdiv, zeroWord_eq_canon hW]
  · next hzero =>
    have ha0 : sval a ≠ 0 := mt (equals_zeroWord_iff hW ha).mpr hzero
    rw [compact_eq_canon hW (applySign_ne_nil _ _), sval_applySign_longdiv ha hb ha0 hb0]

end Quotient

end Sys2Proof.Machine

namespace Sys2Proof.Proofs

open Machine

/-- Settles O17: the magnitude has the absolute value read unsigned (`uval_mag`), and it starts with 1 unless it is empty, so
its length is fixed by that value. -/
theorem magValue : Obligations.MagValue := by
  intro x hx
  refine ⟨uval_mag hx, (mag_eq_nil_iff hx).trans (sval_eq_zero_iff hx), fun h => ?_⟩
  rw [← uval_mag hx]
  exact ⟨head?_mag h, two_pow_le_uval (head?_mag h), uval_lt _⟩

/-- Settles O18: the loop keeps R123's invariant (`Divided.after_divLoop`), which at the end of the dividend is division with
remainder. -/
theorem longDivision : Obligations.LongDivision := by
  intro A B _ hB
  obtain ⟨hq, hr⟩ := uval_longdiv A hB
  refine ⟨hq, hr, ?_, length_divLoop_window _ _ (length_bitsOf _ _)⟩
  rw [longdiv, length_divLoop_quotient, List.length_nil, zero_add, List.length_drop, primeLength]

/-- Settles O19: the quotient is the canonical form of the truncated integer quotient (`divseq_eq_canon`), which is the
quotient of the magnitudes with the product of the signs. -/
theorem divValue : Obligations.DivValue := by
  intro W a b hW ha hb hb0
  refine ⟨_, divseq_eq_canon hW ha hb hb0, canonical_canon hW _, sval_canon hW _, ?_⟩
  rw [sval_canon hW, tdiv_eq_sign_mul_natAbs]

end Sys2Proof.Proofs

/-! Family `44_compare.md`: equality (O23) and the order through the subtractor (O24), by signed values. -/

namespace Sys2Proof.Machine

theorem equals_iff_compact_eq {W : Nat} {a b : Bits} : equals W a b = true ↔ compact W a = compact W b := beq_iff_eq

/-! ### The order through the subtractor (R143) -/

section Order

variable {W : Nat} {a b : Bits}

theorem subseq_ne_nil (hW : 0 < W) (a b : Bits) : subseq W a b ≠ [] := (aligned_subseq hW a b).1

theorem lessthan_iff_sval_subseq_neg (hW : 0 < W) (a b : Bits) : lessthan W a b = true ↔ sval (subseq W a b) < 0 :=
  (sval_neg_iff (subseq_ne_nil hW a b)).symm

/-- R143, the first line: the difference is exact, so its sign is the order. -/
theorem lessthan_iff_of_not_minneg (hW : 2 ≤ W) (ha : a ≠ []) (hb : b ≠ []) (hmin : minneg b = false) :
    lessthan W a b = true ↔ sval a < sval b := by
  obtain ⟨hdiff, -⟩ := Proofs.subValue W a b hW ha hb
  rw [lessthan_iff_sval_subseq_neg (Nat.lt_of_lt_of_le Nat.two_pos hW), hdiff hmin, sub_neg]

/-- R143, the second line: the subtractor adds the most negative value where it should subtract it. -/
theorem lessthan_iff_of_minneg (hW : 2 ≤ W) (ha : a ≠ []) (hb : b ≠ []) (hmin : minneg b = true) :
    lessthan W a b = true ↔ sval a < 2 ^ (b.length - 1) := by
  obtain ⟨-, hsum⟩ := Proofs.subValue W a b hW ha hb
  rw [lessthan_iff_sval_subseq_neg (Nat.lt_of_lt_of_le Nat.two_pos hW), hsum hmin, (minneg_iff hb).mp hmin,
    ← sub_eq_add_neg, sub_neg]

end Order

end Sys2Proof.Machine

namespace Sys2Proof.Proofs

open Machine

/-- Settles O23: `equals` compares the canonical forms, which depend on the signed values only (`equals_iff_sval_eq`). -/
theorem equalsValue : Obligations.EqualsValue := by
  intro W a b hW ha hb
  exact ⟨equals_iff_compact_eq, equals_iff_sval_eq hW ha hb⟩

/-- Settles O24: the order is the sign of the subtractor's result, exact unless `b` is the most negative value of its width;
that value is below every `a` of the range named last, which the second line still calls less. -/
theorem lessThanValue : Obligations.LessThanValue := by
  intro W a b hW ha hb
  refine ⟨rfl, lessthan_iff_of_not_minneg hW ha hb, lessthan_iff_of_minneg hW ha hb, fun hmin hlow hhigh => ?_⟩
  refine ⟨(lessthan_iff_of_minneg hW ha hb hmin).mpr hhigh, ?_⟩
  rw [(minneg_iff hb).mp hmin]
  exact hlow.not_gt

end Sys2Proof.Proofs

/-! Family `45_conversion.md`: decimal rendering (O26). Schoolbook addition adds the values of digit strings and leaves no
leading zero; the scan of R152 adds up the powers of two of the bits set; a digit string without leading zeros is the
numeral of its value. -/

namespace Sys2Proof.Machine

/-! ### The value of a digit string (R150) -/

theorem digitsValue_eq_ofDigits (d : Digits) : digitsValue d = Nat.ofDigits 10 (d.map Fin.val).reverse := by
  simp [digitsValue, Nat.ofDigits_eq_foldr, List.foldl_map, add_comm]

@[simp] theorem digitsValue_nil : digitsValue [] = 0 := rfl

@[simp] theorem digitsValue_cons (c : Fin 10) (d : Digits) :
    digitsValue (c :: d) = c.val * 10 ^ d.length + digitsValue d := by
  simp only [digitsValue_eq_ofDigits, List.map_cons, Nat.ofDigits_reverse_cons, List.length_map]
  ring

theorem digitsValue_padDigits (n : Nat) (u : Digits) : digitsValue (padDigits n u) = digitsValue u := by
  simp [padDigits, digitsValue_eq_ofDigits]

theorem length_padDigits {n : Nat} {u : Digits} (h : u.length ≤ n) : (padDigits n u).length = n := by
  simp [padDigits, h]

/-! ### Schoolbook addition (R150) -/

/-- R150's invariant over the places done so far: a carry of at most 1 and one digit a place, together the sum. -/
def Added (places : List (Fin 10 × Fin 10)) (r : Nat × Digits) : Prop :=
  r.1 ≤ 1 ∧ r.2.length = places.length ∧
    r.1 * 10 ^ places.length + digitsValue r.2 = digitsValue (places.map Prod.fst) + digitsValue (places.map Prod.snd)

theorem Added.cons {places : List (Fin 10 × Fin 10)} {r : Nat × Digits} (h : Added places r) (p : Fin 10 × Fin 10) :
    Added (p :: places) (digitPlace p r) := by
  obtain ⟨hcarry, hlen, hval⟩ := h
  have hplace := Nat.div_add_mod (p.1.val + p.2.val + r.1) 10
  refine ⟨by simp only [digitPlace]; omega, by simp [digitPlace, hlen], ?_⟩
  simp only [digitPlace, digitsValue_cons, List.map_cons, List.length_cons, List.length_map, hlen, Fin.val_ofNat]
  linear_combination hval + 10 ^ places.length * hplace

theorem added_foldr_digitPlace (places : List (Fin 10 × Fin 10)) : Added places (places.foldr digitPlace (0, [])) := by
  induction places with
  | nil => simp [Added]
  | cons p places ih => exact ih.cons p

theorem digitPlaces_carry_le (u v : Digits) : (digitPlaces u v).1 ≤ 1 := (added_foldr_digitPlace _).1

theorem digitsValue_digitPlaces (u v : Digits) :
    (digitPlaces u v).1 * 10 ^ (digitPlaces u v).2.length + digitsValue (digitPlaces u v).2 =
      digitsValue u + digitsValue v := by
  have hu := length_padDigits (Nat.le_max_left u.length v.length)
  have hv := length_padDigits (Nat.le_max_right u.length v.length)
  obtain ⟨-, hlen, hval⟩ := added_foldr_digitPlace
    ((padDigits (max u.length v.length) u).zip (padDigits (max u.length v.length) v))
  rw [List.map_fst_zip (hu.trans hv.symm).le, List.map_snd_zip (hv.trans hu.symm).le, digitsValue_padDigits,
    digitsValue_padDigits] at hval
  rw [digitPlaces, hlen, hval]

theorem digitsValue_withCarry {r : Nat × Digits} (h : r.1 ≤ 1) :
    digitsValue (withCarry r) = r.1 * 10 ^ r.2.length + digitsValue r.2 := by
  unfold withCarry
  split
  · next h1 => simp [h1]
  · next h1 => simp [show r.1 = 0 by omega]

/-- A digit string without leading zeros, or the string `0`. -/
def Trimmed (d : Digits) : Prop := d = [0] ∨ ∃ c rest, d = c :: rest ∧ c ≠ 0

theorem trimmed_trimDigits (d : Digits) : Trimmed (trimDigits d) := by
  have hhead := List.head?_dropWhile_not (fun c => c == 0) d
  unfold trimDigits
  split
  · exact .inl rfl
  · next c rest h => exact .inr ⟨c, rest, rfl, by simpa [h] using hhead⟩

theorem trimDigits_zero_cons (d : Digits) : trimDigits (0 :: d) = trimDigits d := by simp [trimDigits]

theorem trimDigits_cons_of_ne_zero {c : Fin 10} (hc : c ≠ 0) (d : Digits) : trimDigits (c :: d) = c :: d := by
  simp [trimDigits, hc]

theorem digitsValue_trimDigits (d : Digits) : digitsValue (trimDigits d) = digitsValue d := by
  induction d with
  | nil => rfl
  | cons c d ih =>
    by_cases hc : c = 0
    · subst hc
      rw [trimDigits_zero_cons, ih]
      simp
    · rw [trimDigits_cons_of_ne_zero hc]

theorem trimmed_decadd (u v : Digits) : Trimmed (decadd u v) := trimmed_trimDigits _

theorem digitsValue_decadd (u v : Digits) : digitsValue (decadd u v) = digitsValue u + digitsValue v := by
  rw [decadd, digitsValue_trimDigits, digitsValue_withCarry (digitPlaces_carry_le u v), digitsValue_digitPlaces]

/-! ### The scan over the bits (R152) -/

theorem digitsValue_decDouble (k : Nat) (u : Digits) : digitsValue (decDouble k u) = 2 ^ k * digitsValue u := by
  induction k generalizing u with
  | zero => simp [decDouble]
  | succ k ih =>
    rw [decDouble, ih, digitsValue_decadd]
    ring

theorem trimmed_decLoop (bits : Bits) (i last : Nat) (pw : Digits) {acc : Digits} (hacc : Trimmed acc) :
    Trimmed (decLoop bits i last pw acc) := by
  induction bits generalizing i last pw acc with
  | nil => exact hacc
  | cons c rest ih =>
    rw [decLoop]
    split
    · exact ih _ _ _ (trimmed_decadd _ _)
    · exact ih _ _ _ hacc

/-- R152's invariant: `pw` stands for the power of two of the index `last`, and each bit still to come adds its weight. -/
theorem digitsValue_decLoop (bits : Bits) {i last : Nat} (hle : last ≤ i) {pw : Digits} (hpw : digitsValue pw = 2 ^ last)
    (acc : Digits) :
    digitsValue (decLoop bits i last pw acc) = digitsValue acc + 2 ^ i * uval bits.reverse := by
  induction bits generalizing i last pw acc with
  | nil => simp [decLoop]
  | cons c rest ih =>
    rw [decLoop, List.reverse_cons, uval_append_singleton]
    split
    · next hc =>
      have hdouble : digitsValue (decDouble (i - last) pw) = 2 ^ i := by
        rw [digitsValue_decDouble, hpw, ← pow_add, Nat.sub_add_cancel hle]
      rw [ih (Nat.le_add_right i 1) hdouble, digitsValue_decadd, hdouble, hc, Bool.toNat_true]
      ring
    · next hc =>
      rw [ih (Nat.le_add_right_of_le hle) hpw, Bool.eq_false_iff.mpr hc, Bool.toNat_false]
      ring

theorem trimmed_decDigits (x : Bits) : Trimmed (decDigits x) := trimmed_decLoop _ _ _ _ (.inl rfl)

/-- The bits R152 scans are those of R121's magnitude before its leading zeros go. -/
theorem digitsValue_decDigits {x : Bits} (hx : x ≠ []) : digitsValue (decDigits x) = (sval x).natAbs := by
  rw [decDigits, digitsValue_decLoop _ le_rfl rfl, List.reverse_reverse, ← uval_mag hx, mag, uval_strip0]
  simp [tcmag]

/-! ### The ordinary numeral (R153) -/

theorem digits_digitsValue {c : Fin 10} (hc : c ≠ 0) (d : Digits) :
    (Nat.digits 10 (digitsValue (c :: d))).reverse = (c :: d).map Fin.val := by
  rw [digitsValue_eq_ofDigits, Nat.digits_ofDigits 10 (by decide), List.reverse_reverse]
  · intro n hn
    obtain ⟨e, -, rfl⟩ := List.mem_map.mp (List.mem_reverse.mp hn)
    exact e.isLt
  · simpa using Fin.val_ne_zero_iff.mpr hc

theorem digitsValue_cons_ne_zero {c : Fin 10} (hc : c ≠ 0) (d : Digits) : digitsValue (c :: d) ≠ 0 := by
  have hlead : 0 < c.val * 10 ^ d.length := Nat.mul_pos (Nat.pos_of_ne_zero (Fin.val_ne_zero_iff.mpr hc)) (by positivity)
  rw [digitsValue_cons]
  omega

/-- A digit string without leading zeros is the numeral of its value. -/
theorem numeral_digitsValue {d : Digits} (h : Trimmed d) : numeral (digitsValue d) = d.map digitChar := by
  obtain rfl | ⟨c, rest, rfl, hc⟩ := h
  · rfl
  · have hne := digitsValue_cons_ne_zero hc rest
    have hnonneg : ¬((digitsValue (c :: rest) : Nat) : Int) < 0 := by omega
    rw [numeral, if_neg hnonneg, if_neg (by exact_mod_cast hne), Int.natAbs_natCast, digits_digitsValue hc, List.map_map]
    rfl

theorem numeral_of_nonneg {v : Int} (h : 0 ≤ v) : numeral v = numeral v.natAbs := by
  rw [Int.natAbs_of_nonneg h]

/-- A negative numeral is the one of the absolute value with `-` in front. -/
theorem numeral_of_neg {v : Int} (h : v < 0) : numeral v = 0x2D#8 :: numeral v.natAbs := by
  have hne : (v.natAbs : Int) ≠ 0 := by omega
  have hnonneg : ¬(v.natAbs : Int) < 0 := by omega
  rw [numeral, numeral, if_pos h, if_neg h.ne, if_neg hnonneg, if_neg hne, Int.natAbs_natCast]
  rfl

theorem map_digitChar_decDigits {x : Bits} (hx : x ≠ []) : (decDigits x).map digitChar = numeral (sval x).natAbs := by
  rw [← digitsValue_decDigits hx, numeral_digitsValue (trimmed_decDigits x)]

end Sys2Proof.Machine

namespace Sys2Proof.Proofs

open Machine

/-- Settles O26: the scan gives the digits of the magnitude (`digitsValue_decDigits`) without leading zeros
(`trimmed_decDigits`), which are its numeral, and the sign bit decides the `-` in front. -/
theorem todecValue : Obligations.TodecValue := by
  intro x hx
  have hsign := sval_neg_iff hx
  rw [todec, map_digitChar_decDigits hx]
  split
  · next h => exact (numeral_of_neg (hsign.mpr h)).symm
  · next h => exact (numeral_of_nonneg (not_lt.mp (mt hsign.mp h))).symm

end Sys2Proof.Proofs

/-! Family `60_exceptions.md`: the causes RangeError (O46), DivisionByZero (O47) and FormatError (O48), each by the only
commands that raise it, and fault entry (O50). -/

namespace Sys2Proof.Machine

/-! ### The code of the newest response (R29) -/

@[simp] theorem State.lastCode_succeed (s : State) (d : List Byte) : (s.succeed d).lastCode = some 0 :=
  congrArg some (responseWord_fields 0 s.t s.ferrField d).1

@[simp] theorem State.lastCode_raise (s : State) (c : Cause) : (s.raise c).lastCode = some c.code :=
  congrArg some (responseWord_fields c.code s.t (s.noteFault c).ferrField []).1

/-! ### Fault entry (R170) -/

theorem State.raise_ferr_of_none {s : State} (h : s.ferr = none) (c : Cause) : (s.raise c).ferr = some c :=
  State.noteFault_ferr_of_none h c

theorem State.raise_ferr_of_some {s : State} {c0 : Cause} (h : s.ferr = some c0) (c : Cause) :
    (s.raise c).ferr = some c0 :=
  State.noteFault_ferr_of_some h c

/-- The response a fault gives: the cause's code, `T` and `FERR` as they are afterwards, no bytes. -/
theorem State.raise_response (s : State) (c : Cause) :
    ∃ r, (s.raise c).out = r :: s.out ∧ r.dout = [] ∧ r.code = c.code ∧ r.tBit = (s.raise c).t ∧
      r.ferr = (s.raise c).ferrField := by
  obtain ⟨hcode, ht, hferr, -, -⟩ := responseWord_fields c.code s.t (s.noteFault c).ferrField []
  exact ⟨_, s.raise_out c, rfl, hcode, ht, hferr⟩

/-! ### Why a command fails -/

/-- The causes of the register checks (R169, R172) and of the capacity check (R176), which many commands share. -/
def Cause.ofRegister : Cause → Bool
  | .emptyRegister | .stateFault | .capacityFault => true
  | .rangeError | .divisionByZero | .formatError | .illegalCommand => false

/-- Why the command `i` fails in `s` with a cause: the conditions of R166, R167 and R168, each with its command and operands,
and the register causes, whose conditions are not told apart here. -/
inductive FaultReason (s : State) (i : Instr) : Cause → Prop where
  | ofRegister {c : Cause} (hc : c.ofRegister = true) : FaultReason s i c
  | beyondBuilder {rd : VReg} {imm : BitVec 32} {x : Bits} (hi : i = .setbit rd imm) (hx : s.read rd = .build x)
      (hle : x.length ≤ imm.toNat) : FaultReason s i .rangeError
  | zeroDivisor {rd rs1 rs2 : VReg} {a b : Bits} (hi : i = .div rd rs1 rs2 ∨ i = .mod rd rs1 rs2)
      (ha : s.read rs1 = .value a) (hb : s.read rs2 = .value b)
      (hzero : equals s.cfg.wordWidth b (zeroWord s.cfg.wordWidth) = true) : FaultReason s i .divisionByZero
  | illFormed {rd : VReg} {imm : BitVec 32} (hi : i = .ldbits rd imm)
      (hbad : imm.toNat = 0 ∨ parseBits s.din = none) : FaultReason s i .formatError

/-- A next state among the outcomes is one of success, or of a fault for which there is a reason. -/
def FaultsExplained (s : State) (i : Instr) (r : Result) : Prop :=
  ∀ t, r = .next t → t.lastCode = some 0 ∨ ∃ c, FaultReason s i c ∧ t = s.raise c

section Explained

variable {s : State} {i : Instr}

theorem explained_succeed (s1 : State) (d : List Byte) : FaultsExplained s i (.next (s1.succeed d)) := by
  rintro t ⟨⟩
  exact .inl (s1.lastCode_succeed d)

theorem explained_raise {c : Cause} (hc : FaultReason s i c) : FaultsExplained s i (.next (s.raise c)) := by
  rintro t ⟨⟩
  exact .inr ⟨c, hc, rfl⟩

theorem explained_needValue_error {j : VReg} {c : Cause} (h : needValue s j = .error c) :
    FaultsExplained s i (.next (s.raise c)) := by
  obtain ⟨rfl, -⟩ | ⟨rfl, -⟩ := needValue_error h <;> exact explained_raise (.ofRegister rfl)

theorem explained_needBuild_error {j : VReg} {c : Cause} (h : needBuild s j = .error c) :
    FaultsExplained s i (.next (s.raise c)) := by
  obtain ⟨rfl, -⟩ | ⟨rfl, -⟩ := needBuild_error h <;> exact explained_raise (.ofRegister rfl)

theorem explained_storeValue (rd : VReg) (y : Bits) : FaultsExplained s i (storeValue s rd y) := by
  obtain ⟨-, e⟩ | ⟨-, e⟩ := storeValue_cases s rd y <;> rw [e]
  · exact explained_succeed _ _
  · exact explained_raise (.ofRegister rfl)

/-- Format R3: beside the registers, only the operation can fail, on the values read. -/
theorem explained_arith {op : Nat → Bits → Bits → Except Cause Bits} {rd rs1 rs2 : VReg}
    (hop : ∀ a b c, s.read rs1 = .value a → s.read rs2 = .value b → op s.cfg.wordWidth a b = .error c →
      FaultReason s i c) : FaultsExplained s i (arith op rd rs1 rs2 s) := by
  unfold arith
  split
  · next hc => exact explained_needValue_error hc
  · next a ha =>
    split
    · next hc => exact explained_needValue_error hc
    · next b hb =>
      split
      · next c hc => exact explained_raise (hop a b c (needValue_ok_iff.mp ha) (needValue_ok_iff.mp hb) hc)
      · exact explained_storeValue rd _

/-- Format R3, with an operation that raises no error of its own. -/
theorem explained_arith_ok (f : Nat → Bits → Bits → Bits) (rd rs1 rs2 : VReg) :
    FaultsExplained s i (arith (fun W a b => .ok (f W a b)) rd rs1 rs2 s) :=
  explained_arith fun _ _ _ _ _ h => nomatch h

theorem explained_compareRegs (p : Nat → Bits → Bits → Bool) (rs1 rs2 : VReg) :
    FaultsExplained s i (compareRegs p rs1 rs2 s) := by
  unfold compareRegs
  split
  · next hc => exact explained_needValue_error hc
  · split
    · next hc => exact explained_needValue_error hc
    · exact explained_succeed _ _

theorem explained_testReg (p : Bits → Bool) (rs1 : VReg) : FaultsExplained s i (testReg p rs1 s) := by
  unfold testReg
  split
  · next hc => exact explained_needValue_error hc
  · exact explained_succeed _ _

theorem explained_emitReg (g : Bits → List Byte) (rs1 : VReg) : FaultsExplained s i (emitReg g rs1 s) := by
  unfold emitReg
  split
  · next hc => exact explained_needValue_error hc
  · exact explained_succeed _ _

end Explained

/-- `divseq` fails on a zero divisor and on nothing else, whatever the dividend (R124). -/
theorem divseq_error_iff {W : Nat} {a b : Bits} {c : Cause} :
    divseq W a b = .error c ↔ c = .divisionByZero ∧ equals W b (zeroWord W) = true := by
  unfold divseq
  split
  · next h => simp [h, eq_comm]
  · next h => split <;> simp [h]

/-- Every command that answers a next state has succeeded, or has a reason to fail. -/
theorem exec_explained (i : Instr) (s : State) : FaultsExplained s i (exec i s) := by
  cases i with
  | nop | clrerr => exact explained_succeed _ _
  | new rd rnd imm =>
    simp only [exec, execNew]
    split
    · split
      · split
        · exact fun t h => nomatch h
        · exact explained_succeed _ _
      · exact explained_succeed _ _
    · exact explained_raise (.ofRegister rfl)
  | setbit rd imm =>
    simp only [exec, execSetbit]
    split
    · next hc => exact explained_needBuild_error hc
    · next x hx =>
      split
      · exact explained_succeed _ _
      · next hlt => exact explained_raise (.beyondBuilder rfl (needBuild_ok_iff.mp hx) (Nat.not_lt.mp hlt))
  | sealv rd =>
    simp only [exec, execSeal]
    split
    · next hc => exact explained_needBuild_error hc
    · exact explained_succeed _ _
  | ldbits rd imm =>
    simp only [exec, execLdbits]
    split
    · split
      · next hempty => exact explained_raise (.illFormed rfl (.inl hempty))
      · split
        · next hparse => exact explained_raise (.illFormed rfl (.inr hparse))
        · exact explained_storeValue rd _
    · exact fun t h => nomatch h
  | rdbits | todec => exact explained_emitReg _ _
  | add | sub | mul => exact explained_arith_ok _ _ _ _
  | div rd rs1 rs2 =>
    refine explained_arith fun a b c ha hb hc => ?_
    obtain ⟨rfl, hzero⟩ := divseq_error_iff.mp hc
    exact .zeroDivisor (.inl rfl) ha hb hzero
  | mod rd rs1 rs2 =>
    refine explained_arith fun a b c ha hb hc => ?_
    obtain ⟨rfl, hzero⟩ := divseq_error_iff.mp ((modseq_error_iff _ a b c).mp hc)
    exact .zeroDivisor (.inr rfl) ha hb hzero
  | eq | lt => exact explained_compareRegs _ _ _
  | isneg | isodd => exact explained_testReg _ _

/-- A next state that shows a cause's code is the fault with that cause, and there is a reason for it. -/
theorem reason_of_lastCode {i : Instr} {s t : State} {c : Cause} (h : exec i s = .next t)
    (hcode : t.lastCode = some c.code) : FaultReason s i c := by
  obtain hzero | ⟨d, hd, rfl⟩ := exec_explained i s t h
  · exact absurd (Option.some.inj (hcode.symm.trans hzero)) c.code_ne_zero
  · rw [State.lastCode_raise] at hcode
    rwa [← Cause.code_injective (Option.some.inj hcode)]

/-! ### The faults, raised -/

theorem exec_setbit_beyond {s : State} {rd : VReg} {imm : BitVec 32} {x : Bits} (hx : s.read rd = .build x)
    (hle : x.length ≤ imm.toNat) : exec (.setbit rd imm) s = .next (s.raise .rangeError) := by
  simp [exec, execSetbit, needBuild_of_build hx, hle]

theorem arith_of_error {op : Nat → Bits → Bits → Except Cause Bits} {rd rs1 rs2 : VReg} {s : State} {a b : Bits}
    {c : Cause} (ha : s.read rs1 = .value a) (hb : s.read rs2 = .value b)
    (hc : op s.cfg.wordWidth a b = .error c) : arith op rd rs1 rs2 s = .next (s.raise c) := by
  simp [arith_of_values op ha hb, hc]

/-- A zero divisor makes `DIV` and `MOD` fail alike (R127). -/
theorem exec_div_mod_zero {s : State} {i : Instr} {rd rs1 rs2 : VReg} {a b : Bits}
    (hi : i = .div rd rs1 rs2 ∨ i = .mod rd rs1 rs2) (ha : s.read rs1 = .value a) (hb : s.read rs2 = .value b)
    (hzero : equals s.cfg.wordWidth b (zeroWord s.cfg.wordWidth) = true) :
    exec i s = .next (s.raise .divisionByZero) := by
  have hdiv : divseq s.cfg.wordWidth a b = .error .divisionByZero := divseq_error_iff.mpr ⟨rfl, hzero⟩
  obtain rfl | rfl := hi
  · exact arith_of_error ha hb hdiv
  · exact arith_of_error ha hb ((modseq_error_iff _ a b _).mpr hdiv)

/-- `LDBITS` with an empty or ill-formed payload: when it answers a next state, that is FormatError. -/
theorem exec_ldbits_illFormed {s t : State} {rd : VReg} {imm : BitVec 32} (h : exec (.ldbits rd imm) s = .next t)
    (hbad : imm.toNat = 0 ∨ parseBits s.din = none) : t = s.raise .formatError := by
  simp only [exec, execLdbits] at h
  split at h
  · split at h
    · cases h
      rfl
    · next hne =>
      rw [hbad.resolve_left hne] at h
      cases h
      rfl
  · cases h

/-! ### The operands of the faults -/

/-- A payload is unreadable exactly when some byte is neither character (R82). -/
theorem parseBits_eq_none_iff {l : List Byte} : parseBits l = none ↔ ∃ c ∈ l, c ≠ 0x30#8 ∧ c ≠ 0x31#8 := by
  induction l with
  | nil => simp [parseBits]
  | cons b l ih =>
    rw [parseBits, List.exists_mem_cons_iff, ← ih]
    cases parseBits l with
    | none => simp
    | some x =>
      by_cases h1 : b = 0x31#8
      · simp [h1]
      · by_cases h0 : b = 0x30#8 <;> simp [h0, h1]

theorem storable_of_value {s : State} (hs : s.Inv) {j : VReg} {x : Bits} (h : s.read j = .value x) :
    Storable s.cfg x := by
  obtain ⟨-, hregs, -⟩ := hs
  have hwf := hregs j
  rwa [h, Reg.wf_value] at hwf

/-- The divisor test of R124, for a stored divisor: every bit is 0. -/
theorem equals_zeroWord_iff_all_false {s : State} (hs : s.Inv) {j : VReg} {b : Bits} (h : s.read j = .value b) :
    equals s.cfg.wordWidth b (zeroWord s.cfg.wordWidth) = true ↔ ∀ c ∈ b, c = false := by
  obtain ⟨hne, -, -⟩ := storable_of_value hs h
  obtain ⟨hcfg, -, -⟩ := hs
  exact (equals_zeroWord_iff hcfg hne).trans (sval_eq_zero_iff hne)

/-! ### Command words that fail -/

/-- A command word whose response shows a code other than 0 has entered the fault with that code. -/
theorem runWord_raised {w : CmdWord} {s t : State} {E : BitVec 4} (h : runWord w s = .next t)
    (hcode : t.lastCode = some E) (hE : E ≠ 0) : ∃ c : Cause, c.code = E ∧ t = s.raise c := by
  have hraised : ∃ c, t = s.raise c := by
    cases hd : decode w with
    | error e =>
      rw [runWord_of_error hd] at h
      cases h
      exact ⟨_, rfl⟩
    | ok i =>
      rw [runWord_of_ok hd] at h
      obtain hzero | ⟨c, -, e⟩ := exec_explained i s t h
      · exact absurd (Option.some.inj (hcode.symm.trans hzero)) hE
      · exact ⟨c, e⟩
  obtain ⟨c, rfl⟩ := hraised
  exact ⟨c, Option.some.inj ((s.lastCode_raise c).symm.trans hcode), rfl⟩

end Sys2Proof.Machine

namespace Sys2Proof.Proofs

open Machine

/-- Settles O46: RangeError has one reason (`FaultReason.beyondBuilder`), and there `SETBIT` raises it. -/
theorem rangeErrorExactly : Obligations.RangeErrorExactly := by
  intro i s t h
  constructor
  · intro hcode
    cases reason_of_lastCode (c := .rangeError) h hcode with
    | ofRegister hc => cases hc
    | beyondBuilder hi hx hle => exact ⟨_, _, _, hi, hx, hle⟩
  · rintro ⟨rd, imm, x, rfl, hx, hle⟩
    rw [exec_setbit_beyond hx hle] at h
    cases h
    exact s.lastCode_raise .rangeError

/-- Settles O47: DivisionByZero has one reason (`FaultReason.zeroDivisor`), the test `equals(b, ZERO)`, which for a stored
divisor says that every bit is 0. -/
theorem divisionByZeroExactly : Obligations.DivisionByZeroExactly := by
  intro i s t hs h
  constructor
  · intro hcode
    cases reason_of_lastCode (c := .divisionByZero) h hcode with
    | ofRegister hc => cases hc
    | zeroDivisor hi ha hb hzero => exact ⟨_, _, _, _, _, hi, ha, hb, (equals_zeroWord_iff_all_false hs hb).mp hzero⟩
  · rintro ⟨rd, rs1, rs2, a, b, hi, ha, hb, hall⟩
    rw [exec_div_mod_zero hi ha hb ((equals_zeroWord_iff_all_false hs hb).mpr hall)] at h
    cases h
    exact s.lastCode_raise .divisionByZero

/-- Settles O48: FormatError has one reason (`FaultReason.illFormed`); a payload that cannot be read is one with a byte that
is neither `0` nor `1` (`parseBits_eq_none_iff`). -/
theorem formatErrorExactly : Obligations.FormatErrorExactly := by
  intro i s t h
  constructor
  · intro hcode
    cases reason_of_lastCode (c := .formatError) h hcode with
    | ofRegister hc => cases hc
    | illFormed hi hbad => exact ⟨_, _, hi, hbad.imp_right parseBits_eq_none_iff.mp⟩
  · rintro ⟨rd, imm, rfl, hbad⟩
    rw [exec_ldbits_illFormed h (hbad.imp_right parseBits_eq_none_iff.mpr)]
    exact s.lastCode_raise .formatError

/-- Settles O50: a failed command has gone through `State.raise` (`runWord_raised`), whose fields are R170's. -/
theorem faultEntry : Obligations.FaultEntry := by
  intro w s t E h hcode hE
  obtain ⟨c, rfl, rfl⟩ := runWord_raised h hcode hE
  exact ⟨rfl, rfl, rfl, rfl, rfl, rfl, ⟨c, rfl, fun hnone => State.raise_ferr_of_none hnone c⟩,
    fun c0 hsome => State.raise_ferr_of_some hsome c, s.raise_response c⟩

end Sys2Proof.Proofs

/-! Encoding: decoding and encoding are inverse (O1, O2), the decoding procedure is the match and mask table of R60 (O3),
some words of the spec (O4), and what an illegal word does (O6). All of it is said of the fields of R56 first. -/

namespace Sys2Proof

/-! ### Decoding on the fields (R57, R66) -/

/-- The format of a command (R60). -/
def Instr.format : Instr → Format
  | .nop | .clrerr => .z0
  | .new _ _ _ => .n
  | .setbit _ _ | .ldbits _ _ => .i
  | .sealv _ => .d
  | .add _ _ _ | .sub _ _ _ | .mul _ _ _ | .div _ _ _ | .mod _ _ _ => .r3
  | .eq _ _ | .lt _ _ => .r2
  | .rdbits _ | .isneg _ | .isodd _ | .todec _ => .r1

theorem ofBool_beq_one (f : BitVec 1) : BitVec.ofBool (f == 1#1) = f := by decide +revert

theorem assemble_fields (i : Instr) : assemble i.fields = some (i.format, i) := by
  cases i with
  | new rd rnd imm => cases rnd <;> rfl
  | _ => rfl

theorem unusedZero_fields (i : Instr) : i.fields.unusedZero i.format = true := by cases i <;> rfl

theorem decodeFields_ok_iff {f : Fields} {i : Instr} :
    decodeFields f = .ok i ↔ ∃ fmt, assemble f = some (fmt, i) ∧ f.unusedZero fmt = true := by
  cases h : assemble f with
  | none => simp [decodeFields, h]
  | some p =>
    obtain ⟨fmt, j⟩ := p
    cases hz : f.unusedZero fmt <;> simp [decodeFields, h, hz]

theorem decode_ok_iff {w : CmdWord} {i : Instr} :
    decode w = .ok i ↔ ∃ fmt, assemble (unpack w) = some (fmt, i) ∧ (unpack w).unusedZero fmt = true :=
  decodeFields_ok_iff

/-- What it says of the fields that they assemble to a command: its format, its operation code, and the other fields when
the unused ones are zero. -/
theorem assemble_eq_some {f : Fields} {fmt : Format} {i : Instr} (h : assemble f = some (fmt, i)) :
    fmt = i.format ∧ f.opc = i.opc ∧ (f.unusedZero fmt = true → i.fields = f) := by
  obtain ⟨opc, rd, rs1, rs2, z, flag, imm⟩ := f
  unfold assemble at h
  split at h <;> cases h <;>
    simp_all [Instr.format, Instr.opc, Instr.fields, bareFields, Fields.unusedZero, ofBool_beq_one]

/-! ### The match and mask table (R60) -/

/-- The fields that the mask of a format covers: `OPC` and the ones that must be zero (R57). -/
def Format.mask : Format → Fields
  | .z0 => ⟨.allOnes 8, .allOnes 4, .allOnes 4, .allOnes 4, .allOnes 11, .allOnes 1, .allOnes 32⟩
  | .n  => ⟨.allOnes 8, 0, .allOnes 4, .allOnes 4, .allOnes 11, 0, 0⟩
  | .i  => ⟨.allOnes 8, 0, .allOnes 4, .allOnes 4, .allOnes 11, .allOnes 1, 0⟩
  | .d  => ⟨.allOnes 8, 0, .allOnes 4, .allOnes 4, .allOnes 11, .allOnes 1, .allOnes 32⟩
  | .r3 => ⟨.allOnes 8, 0, 0, 0, .allOnes 11, .allOnes 1, .allOnes 32⟩
  | .r2 => ⟨.allOnes 8, .allOnes 4, 0, 0, .allOnes 11, .allOnes 1, .allOnes 32⟩
  | .r1 => ⟨.allOnes 8, .allOnes 4, 0, .allOnes 4, .allOnes 11, .allOnes 1, .allOnes 32⟩

/-- `AND`, field by field. -/
def Fields.and (f g : Fields) : Fields :=
  ⟨f.opc &&& g.opc, f.rd &&& g.rd, f.rs1 &&& g.rs1, f.rs2 &&& g.rs2, f.z &&& g.z, f.f &&& g.f, f.imm &&& g.imm⟩

theorem unpack_and (v w : CmdWord) : unpack (v &&& w) = (unpack v).and (unpack w) := by
  simp [unpack, Fields.and, BitVec.extractLsb'_and]

theorem unpack_inj {v w : CmdWord} : unpack v = unpack w ↔ v = w :=
  (Function.LeftInverse.injective pack_unpack).eq_iff

/-- `AND` with a format's mask leaves the bare operation code exactly when the unused fields are zero. -/
theorem Fields.and_mask_eq_bareFields_iff (f : Fields) (fmt : Format) (opc : BitVec 8) :
    f.and fmt.mask = bareFields opc ↔ f.opc = opc ∧ f.unusedZero fmt = true := by
  cases fmt <;>
    simp only [Fields.and, Format.mask, bareFields, Fields.mk.injEq, BitVec.and_allOnes, BitVec.ofNat_eq_ofNat,
      BitVec.and_zero] <;>
    simp [Fields.unusedZero, and_assoc]

/-- Mnemonic, format and operation code of the commands (R60), in the order of `opcodeRows`. -/
def commandTable : List (String × Format × BitVec 8) :=
  [("NOP", .z0, 0x00), ("CLRERR", .z0, 0x01), ("NEW", .n, 0x10), ("SETBIT", .i, 0x11), ("SEAL", .d, 0x12),
   ("LDBITS", .i, 0x13), ("RDBITS", .r1, 0x14), ("ADD", .r3, 0x20), ("SUB", .r3, 0x21), ("MUL", .r3, 0x22),
   ("DIV", .r3, 0x23), ("MOD", .r3, 0x24), ("EQ", .r2, 0x30), ("LT", .r2, 0x31), ("ISNEG", .r1, 0x32),
   ("ISODD", .r1, 0x33), ("TODEC", .r1, 0x40)]

/-- Match and mask of R60 come from the operation code and the format. -/
theorem opcodeRows_eq_map :
    opcodeRows = commandTable.map fun e => ⟨e.1, pack (bareFields e.2.2), pack e.2.1.mask⟩ := by decide

theorem mem_commandTable (i : Instr) : (i.mnemonic, i.format, i.opc) ∈ commandTable := by
  cases i <;> simp [commandTable, Instr.mnemonic, Instr.format, Instr.opc]

theorem exists_assemble_of_mem {m : String} {fmt : Format} {f : Fields} (h : (m, fmt, f.opc) ∈ commandTable) :
    ∃ i, assemble f = some (fmt, i) ∧ i.mnemonic = m := by
  have hall : ∀ e ∈ commandTable, ∀ f : Fields, f.opc = e.2.2 →
      ∃ i, assemble f = some (e.2.1, i) ∧ i.mnemonic = e.1 := by
    simp only [commandTable, List.forall_mem_cons]
    refine ⟨?_, ?_, ?_, ?_, ?_, ?_, ?_, ?_, ?_, ?_, ?_, ?_, ?_, ?_, ?_, ?_, ?_, fun _ h => nomatch h⟩ <;>
    · rintro ⟨opc, _⟩ rfl
      exact ⟨_, rfl, rfl⟩
  exact hall _ h f rfl

/-- The mnemonic of a command fixes its row. -/
theorem eq_of_mem_commandTable {i : Instr} {fmt : Format} {opc : BitVec 8}
    (h : (i.mnemonic, fmt, opc) ∈ commandTable) : fmt = i.format ∧ opc = i.opc := by
  have hnodup : (commandTable.map Prod.fst).Nodup := by decide
  have heq := List.inj_on_of_nodup_map hnodup h (mem_commandTable i) rfl
  simpa using heq

/-- R66's procedure finds the command of a row exactly in the words with its operation code and zeros in the fields its
format does not use. -/
theorem exists_decode_iff {m : String} {fmt : Format} {opc : BitVec 8} (h : (m, fmt, opc) ∈ commandTable) (w : CmdWord) :
    (∃ i, decode w = .ok i ∧ i.mnemonic = m) ↔ (unpack w).opc = opc ∧ (unpack w).unusedZero fmt = true := by
  constructor
  · rintro ⟨i, hi, rfl⟩
    obtain ⟨fmt', hasm, hz⟩ := decode_ok_iff.mp hi
    obtain ⟨rfl, hopc, -⟩ := assemble_eq_some hasm
    obtain ⟨rfl, rfl⟩ := eq_of_mem_commandTable h
    exact ⟨hopc, hz⟩
  · rintro ⟨rfl, hz⟩
    obtain ⟨i, hasm, hi⟩ := exists_assemble_of_mem h
    exact ⟨i, decode_ok_iff.mpr ⟨fmt, hasm, hz⟩, hi⟩

/-- A word matches a row of R60 exactly when its fields do. -/
theorem and_mask_eq_iff (w : CmdWord) (fmt : Format) (opc : BitVec 8) :
    w &&& pack fmt.mask = pack (bareFields opc) ↔ (unpack w).opc = opc ∧ (unpack w).unusedZero fmt = true := by
  rw [← unpack_inj, unpack_and, unpack_pack, unpack_pack, Fields.and_mask_eq_bareFields_iff]

end Sys2Proof

namespace Sys2Proof.Proofs

/-- Settles O1: the fields of a word are the command's (`decode_pack`), with its format's unused fields zero. -/
theorem decodeEncode : Obligations.DecodeEncode := by
  intro i
  rw [encode, decode_pack]
  exact decodeFields_ok_iff.mpr ⟨_, assemble_fields i, unusedZero_fields i⟩

/-- Settles O2: the fields of a word that decodes are those of the command (`assemble_eq_some`), and a word is the packing of
its fields. -/
theorem encodeDecode : Obligations.EncodeDecode := by
  intro w i h
  obtain ⟨fmt, hi, hz⟩ := decode_ok_iff.mp h
  obtain ⟨-, -, hfields⟩ := assemble_eq_some hi
  rw [encode, hfields hz, pack_unpack]

/-- Settles O3: both sides say that the word has the row's operation code and zeros in the fields its format does not use. -/
theorem decodeMatchesMask : Obligations.DecodeMatchesMask := by
  intro w r hr
  rw [opcodeRows_eq_map] at hr
  obtain ⟨⟨m, fmt, opc⟩, he, rfl⟩ := List.mem_map.mp hr
  rw [exists_decode_iff he, and_mask_eq_iff]

/-- Settles O4. -/
theorem specWordsDecode : Obligations.SpecWordsDecode := by
  unfold Obligations.SpecWordsDecode
  decide

end Sys2Proof.Proofs

namespace Sys2Proof

/-! ### Illegal words (R61) -/

theorem exists_decode_error {w : CmdWord} (h : wellFormedWord w = false) : ∃ e, decode w = .error e := by
  cases hd : decode w with
  | error e => exact ⟨e, rfl⟩
  | ok i =>
    have hrow : (⟨i.mnemonic, pack (bareFields i.opc), pack i.format.mask⟩ : OpcodeRow) ∈ opcodeRows := by
      rw [opcodeRows_eq_map]
      exact List.mem_map.mpr ⟨_, mem_commandTable i, rfl⟩
    have hcover := (Proofs.decodeMatchesMask w _ hrow).mp ⟨i, hd, rfl⟩
    have hwf : wellFormedWord w = true := List.any_eq_true.mpr ⟨_, hrow, beq_iff_eq.mpr hcover⟩
    simp [hwf] at h

end Sys2Proof

namespace Sys2Proof.Proofs

open Machine

/-- Settles O6: such a word does not decode (`exists_decode_error`), so the step is the fault entry with that cause. -/
theorem illegalWordFails : Obligations.IllegalWordFails := by
  intro s rest w payload hhost hw
  obtain ⟨e, he⟩ := exists_decode_error hw
  obtain ⟨r, hout, hdout, hcode, -, -⟩ := ((s.setHost rest).setDin payload).raise_response .illegalCommand
  exact ⟨_, r, (step_of_command hhost).trans (runWord_of_error he _), rfl, rfl, rfl, rfl, rfl, rfl, hout, hcode, hdout,
    fun h => State.raise_ferr_of_none h _, fun c h => State.raise_ferr_of_some h _⟩

end Sys2Proof.Proofs

/-! Family `43_divide.md`: the value of the remainder (O20), its rows against the floor remainder (O21), and quotient and
remainder of a non-negative dividend by a positive divisor (O22). The wrapping conditions of R128 are the cases where the
canonical form of a value is the most negative sequence of its width, which the multiplier and the subtractor get wrong. -/

namespace Sys2Proof.Machine

section Remainder

variable {W : Nat} {a b : Bits}

/-! ### Canonical forms that are most negative (R128) -/

theorem two_pow_words_le_iff (hW : 0 < W) {m n : Nat} (hn : 1 ≤ n) :
    (2 : Int) ^ (m * W - 1) ≤ 2 ^ (n * W - 1) ↔ m ≤ n := by
  have hn' : 1 ≤ n * W := Nat.mul_pos hn hW
  rw [pow_le_pow_iff_right₀ (by decide), Nat.sub_le_sub_iff_right hn', Nat.mul_le_mul_right_iff hW]

/-- The most negative value of `j` words needs exactly `j` words. -/
theorem leastWords_neg_two_pow (hW : 2 ≤ W) {j : Nat} (hj : 1 ≤ j) : leastWords W (-(2 ^ (j * W - 1) : Int)) = j := by
  have hW0 : 0 < W := Nat.lt_of_lt_of_le Nat.two_pos hW
  have hpos : (0 : Int) < 2 ^ (j * W - 1) := by positivity
  refine (leastWords_isLeast hW _).unique ⟨⟨hj, fitsWords_iff.mpr ⟨le_rfl, by omega⟩⟩, fun m ⟨hm, hfit⟩ => ?_⟩
  obtain ⟨hlow, -⟩ := fitsWords_iff.mp hfit
  exact (two_pow_words_le_iff hW0 hm).mp (neg_le_neg_iff.mp hlow)

theorem minneg_canon_iff (hW : 2 ≤ W) (v : Int) : minneg (canon W v) = true ↔ Wrapping W v := by
  rw [minneg_iff (canon_ne_nil hW v), sval_canon hW, length_canon]
  constructor
  · intro h
    obtain ⟨⟨hn, -⟩, -⟩ := leastWords_isLeast hW v
    exact ⟨_, hn, h⟩
  · rintro ⟨j, hj, rfl⟩
    rw [leastWords_neg_two_pow hW hj]

theorem minneg_canon_eq_false_iff (hW : 2 ≤ W) (v : Int) : minneg (canon W v) = false ↔ ¬Wrapping W v := by
  rw [← minneg_canon_iff hW, Bool.not_eq_true]

theorem neg_of_wrapping {v : Int} (h : Wrapping W v) : v < 0 := by
  obtain ⟨j, -, rfl⟩ := h
  exact neg_lt_zero.mpr (by positivity)

/-! ### The units on canonical forms -/

theorem subseq_eq_canon (hW : 2 ≤ W) (ha : a ≠ []) (hb : b ≠ []) :
    subseq W a b = canon W (if minneg b then sval a + sval b else sval a - sval b) := by
  rw [subseq, addseq_eq_canon hW ha (negate_ne_nil hb)]
  cases h : minneg b with
  | false => simp [sval_negate hb h, sub_eq_add_neg]
  | true => simp [negate_of_minneg hb h]

theorem mulseq_eq_canon_ite (hW : 2 ≤ W) (ha : a ≠ []) (hb : b ≠ []) :
    mulseq W a b = canon W (if sval b < 0 ∧ minneg a = true then -(sval a * sval b) else sval a * sval b) := by
  split
  · next h => exact mulseq_eq_canon_neg hW ha hb h.2 h.1
  · next h => exact mulseq_eq_canon hW ha hb fun ⟨hmin, hneg⟩ => h ⟨hneg, hmin⟩

theorem sval_oneWord (hW : 2 ≤ W) : sval (oneWord W) = 1 := by
  obtain ⟨k, rfl⟩ := Nat.exists_eq_add_of_le hW
  rw [oneWord, show 2 + k - 1 = k + 1 by omega, sval_rep_succ_append]
  simp

theorem oneWord_ne_nil (W : Nat) : oneWord W ≠ [] := List.append_ne_nil_of_right_ne_nil _ (List.cons_ne_nil _ _)

theorem minneg_oneWord (hW : 2 ≤ W) : minneg (oneWord W) = false := by
  refine Bool.eq_false_iff.mpr fun h => ?_
  have hval := (minneg_iff (oneWord_ne_nil W)).mp h
  have hpos : (0 : Int) < 2 ^ ((oneWord W).length - 1) := by positivity
  rw [sval_oneWord hW] at hval
  omega

/-- R127, step 2: the decrement is exact, as +1 is not the most negative value of its width. -/
theorem floorAdjust_canon (hW : 2 ≤ W) (A B : Int) : floorAdjust W (canon W (A.tdiv B)) = canon W (decQuotient A B) := by
  have hne := canon_ne_nil hW (A.tdiv B)
  have hsign := sval_neg_iff hne
  rw [sval_canon hW] at hsign
  rw [floorAdjust, decQuotient, subseq_eq_canon hW hne (oneWord_ne_nil W), minneg_oneWord hW, sval_oneWord hW,
    sval_canon hW]
  simp only [hsign]
  split <;> rfl

/-! ### The remainder (R127, R128) -/

/-- The product of R128, its sign wrong in the first wrapping case. -/
theorem mulseq_canon_decQuotient (hW : 2 ≤ W) (hb : b ≠ []) {q P : Int}
    (hwrong : (sval b < 0 ∧ Wrapping W q) → P = -(q * sval b))
    (hright : ¬(sval b < 0 ∧ Wrapping W q) → P = q * sval b) :
    mulseq W (canon W q) b = canon W P := by
  rw [← minneg_canon_iff hW] at hwrong hright
  rw [mulseq_eq_canon_ite hW (canon_ne_nil hW q) hb, sval_canon hW]
  split
  · next h => rw [hwrong h]
  · next h => rw [hright h]

/-- The difference of R128, a sum in the second wrapping case. -/
theorem subseq_canon_of_wrapping (hW : 2 ≤ W) (ha : a ≠ []) {P v : Int} (hadd : Wrapping W P → v = sval a + P)
    (hsub : ¬Wrapping W P → v = sval a - P) : subseq W a (canon W P) = canon W v := by
  rw [← minneg_canon_iff hW] at hadd hsub
  rw [subseq_eq_canon hW ha (canon_ne_nil hW P), sval_canon hW]
  split
  · next h => rw [hadd h]
  · next h => rw [hsub h]

theorem modseq_eq_canon (hW : 2 ≤ W) (ha : a ≠ []) (hb : b ≠ []) (hb0 : sval b ≠ 0) {v : Int}
    (h : ModAnswer W (sval a) (sval b) v) : modseq W a b = .ok (canon W v) := by
  obtain ⟨P, hwrong, hright, hadd, hsub⟩ := h
  rw [modseq, divseq_eq_canon hW ha hb hb0]
  simp only [floorAdjust_canon hW, mulseq_canon_decQuotient hW hb hwrong hright, subseq_canon_of_wrapping hW ha hadd hsub]

/-- R128 gives every pair of values a remainder. -/
theorem exists_modAnswer (W : Nat) (A B : Int) : ∃ v, ModAnswer W A B v := by
  have hif : ∀ (p : Prop) (x y : Int), ∃ z, (p → z = x) ∧ (¬p → z = y) := by
    classical
    exact fun p x y => ⟨if p then x else y, fun h => if_pos h, fun h => if_neg h⟩
  obtain ⟨P, hwrong, hright⟩ :=
    hif (B < 0 ∧ Wrapping W (decQuotient A B)) (-(decQuotient A B * B)) (decQuotient A B * B)
  obtain ⟨v, hadd, hsub⟩ := hif (Wrapping W P) (A + P) (A - P)
  exact ⟨v, P, hwrong, hright, hadd, hsub⟩

/-- R128 outside the two wrapping conditions. -/
theorem modAnswer_of_not_wrapping {A B : Int} (hq : ¬(B < 0 ∧ Wrapping W (decQuotient A B)))
    (hp : ¬Wrapping W (decQuotient A B * B)) : ModAnswer W A B (A - decQuotient A B * B) :=
  ⟨_, fun h => absurd h hq, fun _ => rfl, fun h => absurd h hp, fun _ => rfl⟩

end Remainder

/-! ### Truncated and floor remainder of integers -/

section Integers

variable {A B : Int}

/-- The remainder outside the wrapping cases: one divisor more where the quotient is decremented. -/
theorem sub_decQuotient_mul (A B : Int) : A - decQuotient A B * B = A.tmod B + if A.tdiv B < 0 then B else 0 := by
  have hdiv := Int.tmod_add_tdiv_mul A B
  rw [decQuotient]
  split <;> linarith

theorem mul_neg_of_tdiv_neg (h : A.tdiv B < 0) : A * B < 0 := by
  have hsign : (A.tdiv B).sign = -1 := Int.sign_eq_neg_one_of_neg h
  rw [Int.sign_tdiv] at hsign
  split at hsign
  · cases hsign
  · rwa [← Int.sign_mul, Int.sign_eq_neg_one_iff_neg] at hsign

theorem tdiv_eq_zero_of_natAbs_lt (h : A.natAbs < B.natAbs) : A.tdiv B = 0 := by
  rw [← Int.natAbs_eq_zero, Int.natAbs_tdiv]
  exact Nat.div_eq_of_lt h

theorem fmod_eq_tmod_of_mul_nonneg (hB : B ≠ 0) (h : 0 ≤ A * B) : A.fmod B = A.tmod B := by
  rw [Int.fmod_eq_tmod]
  obtain ⟨hA, hB'⟩ | ⟨hA, hB'⟩ := mul_nonneg_iff.mp h
  · simp [hA, hB']
  · obtain rfl | hA := hA.eq_or_lt
    · simp
    · simp [hA.not_ge, (lt_of_le_of_ne hB' hB).not_ge, Int.toNat_of_nonpos hB']

theorem fmod_eq_tmod_add_of_mul_neg (h : A * B < 0) (hr : A.tmod B ≠ 0) : A.fmod B = A.tmod B + B := by
  have hdvd : ¬B ∣ A := fun hd => hr (Int.tmod_eq_zero_of_dvd hd)
  rw [Int.fmod_eq_tmod, if_neg hdvd]
  obtain ⟨hA, hB⟩ | ⟨hA, hB⟩ := mul_neg_iff.mp h
  · simp [hA.le, hB]
  · simp [hA.not_ge, hB.le]

end Integers

end Sys2Proof.Machine

namespace Sys2Proof.Proofs

open Machine

/-- Settles O20: the remainder is the canonical form of R128's value (`modseq_eq_canon`), which always exists. -/
theorem modValue : Obligations.ModValue := by
  intro W a b hW ha hb hb0
  obtain ⟨v, hv⟩ := exists_modAnswer W (sval a) (sval b)
  refine ⟨_, modseq_eq_canon hW ha hb hb0 hv, canonical_canon hW v, ?_⟩
  rwa [sval_canon hW]

/-- Settles O21: outside the wrapping cases the remainder is the truncated one, plus the divisor where the quotient is
negative (`sub_decQuotient_mul`). -/
theorem modRows : Obligations.ModRows := by
  intro W a b r hW ha hb hb0 hr hq hp
  have hval : sval r = (sval a).tmod (sval b) + if (sval a).tdiv (sval b) < 0 then sval b else 0 := by
    rw [modseq_eq_canon hW ha hb hb0 (modAnswer_of_not_wrapping hq hp)] at hr
    cases hr
    rw [sval_canon hW, sub_decQuotient_mul]
  refine ⟨fun h => ?_, fun hneg hr0 => ?_, fun hneg hr0 => ?_, fun h hlt => ?_⟩
  · have htrunc : sval r = (sval a).tmod (sval b) := by
      rw [hval, if_neg fun hneg => h.not_gt (mul_neg_of_tdiv_neg hneg), add_zero]
    exact ⟨htrunc, htrunc.trans (fmod_eq_tmod_of_mul_nonneg hb0 h).symm⟩
  · have hadd : sval r = (sval a).tmod (sval b) + sval b := by rw [hval, if_pos hneg]
    exact ⟨hadd, hadd.trans (fmod_eq_tmod_add_of_mul_neg (mul_neg_of_tdiv_neg hneg) hr0).symm⟩
  · exact ⟨by rw [hval, if_pos hneg, hr0, zero_add], Int.fmod_eq_zero_of_dvd (Int.dvd_of_tmod_eq_zero hr0)⟩
  · have hzero := tdiv_eq_zero_of_natAbs_lt hlt
    have htmod : (sval a).tmod (sval b) = sval a := by rw [Int.tmod_def, hzero, mul_zero, sub_zero]
    have ha0 : sval a ≠ 0 := left_ne_zero_of_mul h.ne
    refine ⟨by rw [hval, hzero, if_neg (lt_irrefl 0), htmod, add_zero], ?_⟩
    rw [fmod_eq_tmod_add_of_mul_neg h (by rwa [htmod]), htmod]

/-- Settles O22: with a non-negative quotient nothing is decremented and nothing wraps; the division identity is the one of
the integers, between canonical forms. -/
theorem divModNonnegative : Obligations.DivModNonnegative := by
  intro W a b hW ha hb ha0 hb0
  have hquot : (sval a).tdiv (sval b) = sval a / sval b := Int.tdiv_eq_ediv_of_nonneg ha0
  have hq0 : 0 ≤ sval a / sval b := Int.ediv_nonneg ha0 hb0.le
  have hdec : decQuotient (sval a) (sval b) = sval a / sval b := by rw [decQuotient, hquot, if_neg hq0.not_gt]
  have hmod := modAnswer_of_not_wrapping (W := W) (A := sval a) (B := sval b) (fun h => hb0.not_gt h.1)
    (fun h => (mul_nonneg (hdec ▸ hq0) hb0.le).not_gt (neg_of_wrapping h))
  have hrem : sval a - decQuotient (sval a) (sval b) * sval b = sval a % sval b := by
    rw [hdec, Int.emod_def, mul_comm]
  rw [hrem] at hmod
  have hqne := canon_ne_nil hW (sval a / sval b)
  refine ⟨canon W (sval a / sval b), canon W (sval a % sval b), by rw [divseq_eq_canon hW ha hb hb0.ne', hquot],
    modseq_eq_canon hW ha hb hb0.ne' hmod, sval_canon hW _, sval_canon hW _, ?_⟩
  rw [addseq_eq_canon hW (mulseq_ne_nil hW _ _) (canon_ne_nil hW _),
    sval_mulseq hW hqne hb (mulExact_of_sval_nonneg hb0.le), sval_canon hW, sval_canon hW, Int.ediv_mul_add_emod,
    compact_eq_canon hW ha]

end Sys2Proof.Proofs

/-! Family `45_conversion.md`: decimal addition (O25). -/

namespace Sys2Proof.Proofs

open Machine

/-- Settles O25: the places add up with their carry (`digitsValue_decadd`), and the leading zeros are cut off. -/
theorem decaddValue : Obligations.DecaddValue := fun u v => ⟨digitsValue_decadd u v, trimmed_decadd u v⟩

end Sys2Proof.Proofs

/-! Steps, reset and the system commands: O5, O7, O9, O27. -/

namespace Sys2Proof.Machine

/-- The response of a success: code 0, `T` and `FERR` as they are, the bytes given (R171). -/
theorem State.succeed_response (s : State) (d : List Byte) :
    ∃ r, (s.succeed d).out = r :: s.out ∧ r.code = 0 ∧ r.tBit = s.t ∧ r.ferr = s.ferrField ∧ r.dout = d := by
  obtain ⟨hcode, ht, hferr, -, -⟩ := responseWord_fields 0 s.t s.ferrField d
  exact ⟨_, s.succeed_out d, hcode, ht, hferr, rfl⟩

end Sys2Proof.Machine

namespace Sys2Proof.Proofs

open Machine

/-- Settles O5. -/
theorem stepRunsDecoded : Obligations.StepRunsDecoded := fun _ _ _ _ _ hhost hd =>
  (step_of_command hhost).trans (runWord_of_ok hd _)

/-- Settles O7: the two steps that run no command. -/
theorem stepWaitsAndResets : Obligations.StepWaitsAndResets :=
  ⟨fun _ => step_of_idle, fun _ _ h => ⟨_, step_of_reset h, State.read_resetBlock _, rfl, rfl, rfl, rfl, rfl, rfl, rfl⟩⟩

/-- Settles O9: every register is EMPTY and no response was given; the width is R6's default. -/
theorem resetInv : Obligations.ResetInv := by
  refine ⟨by decide, fun i => ?_, List.forall_mem_nil _⟩
  rw [State.read_reset, Reg.wf_empty]

/-- Settles O27: both commands are a success, `CLRERR` after `FERR` is cleared. -/
theorem nopClrerrRun : Obligations.NopClrerrRun := by
  intro s
  obtain ⟨r, hout, hcode, ht, hferr, hdout⟩ := s.succeed_response []
  obtain ⟨r', hout', hcode', ht', hferr', hdout'⟩ := s.clearFerr.succeed_response []
  exact ⟨⟨_, r, rfl, rfl, rfl, rfl, rfl, rfl, rfl, hout, hcode, ht, hferr, hdout⟩,
    ⟨_, r', rfl, rfl, rfl, rfl, rfl, rfl, rfl, hout', hcode', ht', hferr', hdout'⟩⟩

end Sys2Proof.Proofs

/-! Family `40_representation.md`: the commands `NEW` (O28, O29, O30), `SETBIT` (O31), `SEAL` (O32), `LDBITS` (O33, O34) and
`RDBITS` (O35, O36). -/

namespace Sys2Proof.Machine

/-! ### Draws (R50) -/

namespace RandomSource

/-- The source answers `n` draws: from its script, or because it is live (R198). -/
def Answers (r : RandomSource) (n : Nat) : Prop := r.live = true ∨ n ≤ r.script.length

/-- The source `n` draws further on. -/
def skip (r : RandomSource) (n : Nat) : RandomSource :=
  { script := r.script.drop n, live := r.live, drawn := r.drawn + n }

/-- The answer to the draw number `p` from now on: the recorded one, or the free bit of its number. -/
def answer (r : RandomSource) (p : Nat) : Bool := r.script.getD p (Config.randomBit (r.drawn + p))

theorem skip_zero (r : RandomSource) : r.skip 0 = r := rfl

theorem skip_one_skip (r : RandomSource) (n : Nat) : (r.skip 1).skip n = r.skip (n + 1) := by
  simp [skip, Nat.add_assoc, Nat.add_comm 1]

theorem answer_skip_one (r : RandomSource) (p : Nat) : (r.skip 1).answer p = r.answer (p + 1) := by
  simp [skip, answer, List.getD_eq_getElem?_getD, Nat.add_assoc, Nat.add_comm 1]

theorem draw_of_answers {r : RandomSource} {n : Nat} (h : r.Answers (n + 1)) : r.draw = some (r.answer 0, r.skip 1) := by
  obtain ⟨script, live, drawn⟩ := r
  cases script with
  | cons b rest => rfl
  | nil =>
    obtain hlive | hlen := h
    · obtain rfl : live = true := hlive
      rfl
    · exact absurd hlen (Nat.not_succ_le_zero n)

theorem Answers.skip_one {r : RandomSource} {n : Nat} (h : r.Answers (n + 1)) : (r.skip 1).Answers n := by
  refine h.imp_right fun hlen => ?_
  rw [skip, List.length_drop]
  omega

/-- R79: `n` answered draws give the next `n` answers in order. -/
theorem drawBits_of_answers {r : RandomSource} {n : Nat} (h : r.Answers n) :
    r.drawBits n = some ((List.range n).map r.answer, r.skip n) := by
  induction n generalizing r with
  | zero => rfl
  | succ n ih =>
    rw [drawBits, draw_of_answers h]
    simp only [ih h.skip_one, skip_one_skip, List.range_succ_eq_map, List.map_cons, List.map_map, Option.some.injEq,
      Prod.mk.injEq, List.cons.injEq, and_true, true_and]
    exact List.map_congr_left fun p _ => answer_skip_one r p

/-- A silent source whose script is too short does not answer all the draws. -/
theorem drawBits_of_silent {r : RandomSource} {n : Nat} (hlive : r.live = false) (hlen : r.script.length < n) :
    r.drawBits n = none := by
  induction n generalizing r with
  | zero => exact absurd hlen (Nat.not_lt_zero _)
  | succ n ih =>
    obtain ⟨script, live, drawn⟩ := r
    obtain rfl : live = false := hlive
    cases script with
    | nil => rfl
    | cons b rest => simp [drawBits, draw, ih (r := ⟨rest, false, drawn + 1⟩) rfl (Nat.lt_of_succ_lt_succ hlen)]

end RandomSource

/-! ### `NEW` (R79) -/

section New

variable {s : State} {rd : VReg} {imm : BitVec 32} {n : Nat}

/-- The least number of words is the rounded-up quotient of R79. -/
theorem allocWords_eq {W : Nat} (hW : 2 ≤ W) (h : IsWordCount W imm.toNat n) : allocWords W imm = n := by
  obtain ⟨hn, hle, hleast⟩ := h
  have hW0 : 0 < W := Nat.lt_of_lt_of_le Nat.two_pos hW
  have hup : (imm.toNat + W - 1) / W ≤ n := by
    refine Nat.le_of_lt_succ ((Nat.div_lt_iff_lt_mul hW0).mpr ?_)
    rw [Nat.succ_mul]
    omega
  rw [allocWords]
  obtain rfl | hlow := hleast
  · exact max_eq_left hup
  · have hdown : n ≤ (imm.toNat + W - 1) / W := by
      rw [Nat.le_div_iff_mul_le hW0, ← Nat.sub_add_cancel hn, Nat.succ_mul]
      omega
    rw [le_antisymm hup hdown, max_eq_right hn]

variable (hcfg : s.cfg.WF) (hn : IsWordCount s.cfg.wordWidth imm.toNat n)
include hcfg hn

theorem exec_new_of_not_holds (rnd : Bool) (hcap : holdsWords s.cfg n = false) :
    exec (.new rd rnd imm) s = .next (s.raise .capacityFault) := by
  simp [exec, execNew, allocWords_eq hcfg hn, hcap]

variable (hcap : holdsWords s.cfg n = true)
include hcap

theorem exec_new_zeroed :
    exec (.new rd false imm) s = .next ((s.write rd (.build (rep false (n * s.cfg.wordWidth)))).succeed []) := by
  simp [exec, execNew, allocWords_eq hcfg hn, hcap]

theorem exec_new_random (h : s.rbit.Answers (n * s.cfg.wordWidth)) :
    exec (.new rd true imm) s =
      .next (((s.setRbit (s.rbit.skip (n * s.cfg.wordWidth))).write rd
        (.build ((List.range (n * s.cfg.wordWidth)).map s.rbit.answer))).succeed []) := by
  simp [exec, execNew, allocWords_eq hcfg hn, hcap,
    RandomSource.drawBits_of_answers h]

theorem exec_new_silent (hlive : s.rbit.live = false) (hlen : s.rbit.script.length < n * s.cfg.wordWidth) :
    exec (.new rd true imm) s = .fault .drawUnanswered := by
  simp [exec, execNew, allocWords_eq hcfg hn, hcap,
    RandomSource.drawBits_of_silent hlive hlen]

end New

end Sys2Proof.Machine

namespace Sys2Proof.Proofs

open Machine

/-- Settles O28. -/
theorem newZeroed : Obligations.NewZeroed := fun _ _ _ _ hcfg hn hcap => exec_new_zeroed hcfg hn hcap

/-- Settles O29: the drawn bits are the source's next answers in order (`RandomSource.drawBits_of_answers`). -/
theorem newRandom : Obligations.NewRandom := by
  intro s rd imm n hcfg hn hcap h
  refine ⟨(List.range (n * s.cfg.wordWidth)).map s.rbit.answer, by simp, fun p hp => ?_, exec_new_random hcfg hn hcap h⟩
  rw [List.getElem?_map, List.getElem?_range hp]
  rfl

/-- Settles O30: some draw is not answered (`RandomSource.drawBits_of_silent`). -/
theorem newUnanswered : Obligations.NewUnanswered := fun _ _ _ _ hcfg hn hcap hlive hlen =>
  exec_new_silent hcfg hn hcap hlive hlen

end Sys2Proof.Proofs

namespace Sys2Proof.Machine

/-! ### Builders (R80, R81) -/

section Builders

variable {s : State} {rd : VReg} {x : Bits}

theorem exec_setbit_of_build {imm : BitVec 32} (h : s.read rd = .build x) (hlt : imm.toNat < x.length) :
    exec (.setbit rd imm) s = .next ((s.write rd (.build (x.set imm.toNat true))).succeed []) := by
  simp [exec, execSetbit, needBuild_of_build h, hlt]

theorem exec_seal_of_build (h : s.read rd = .build x) :
    exec (.sealv rd) s = .next ((s.write rd (.value x)).succeed []) := by
  simp [exec, execSeal, needBuild_of_build h]

theorem exec_seal_of_error {c : Cause} (h : needBuild s rd = .error c) : exec (.sealv rd) s = .next (s.raise c) := by
  simp [exec, execSeal, h]

theorem exec_setbit_of_error {c : Cause} (h : needBuild s rd = .error c) (imm : BitVec 32) :
    exec (.setbit rd imm) s = .next (s.raise c) := by
  simp [exec, execSetbit, h]

end Builders

/-! ### Results within capacity (R176) -/

section Capacity

variable {c : Config}

theorem holdsWords_of_le {m n : Nat} (hmn : m ≤ n) (h : holdsWords c n = true) : holdsWords c m = true := by
  unfold holdsWords at *
  split
  · rfl
  · next cap hcap =>
    rw [hcap] at h
    exact decide_eq_true (hmn.trans (of_decide_eq_true h))

theorem capOk_canon (hc : c.WF) (v : Int) : capOk c (canon c.wordWidth v) = holdsWords c (leastWords c.wordWidth v) := by
  rw [capOk, length_canon, Nat.mul_div_cancel _ (Nat.lt_of_lt_of_le Nat.two_pos hc)]

/-- The canonical form of a stored value is no longer than what is stored. -/
theorem capOk_canon_sval (hc : c.WF) {x : Bits} (hx : Storable c x) : capOk c (canon c.wordWidth (sval x)) = true := by
  obtain ⟨hne, ⟨k, hk⟩, hcap⟩ := hx
  have hW0 : 0 < c.wordWidth := Nat.lt_of_lt_of_le Nat.two_pos hc
  have hk0 : 1 ≤ k := by
    have hpos := List.length_pos_iff.mpr hne
    rw [hk] at hpos
    exact Nat.pos_of_mul_pos_left hpos
  have hfit : fitsWords c.wordWidth (sval x) k = true := by
    rw [fitsWords_iff, Nat.mul_comm, ← hk]
    exact sval_range hne
  obtain ⟨-, hleast⟩ := leastWords_isLeast hc (sval x)
  rw [capOk, hk, Nat.mul_div_cancel_left _ hW0] at hcap
  rw [capOk_canon hc]
  exact holdsWords_of_le (hleast ⟨hk0, hfit⟩) hcap

theorem storeValue_of_capOk {s : State} (rd : VReg) {y : Bits} (h : capOk s.cfg y = true) :
    storeValue s rd y = .next ((s.write rd (.value y)).succeed []) := by
  rw [storeValue, if_pos h]

theorem storeValue_of_not_capOk {s : State} (rd : VReg) {y : Bits} (h : capOk s.cfg y = false) :
    storeValue s rd y = .next (s.raise .capacityFault) := by
  rw [storeValue, if_neg (Bool.eq_false_iff.mp h)]

end Capacity

/-! ### Bit strings (R82, R83) -/

section BitStrings

variable {s : State} {x : Bits}

theorem exec_ldbits_eq_storeValue (hcfg : s.cfg.WF) (rd : VReg) {imm : BitVec 32} (hne : x ≠ [])
    (hlen : x.length = imm.toNat) (hdin : s.din = renderBits x) :
    exec (.ldbits rd imm) s = storeValue s rd (canon s.cfg.wordWidth (sval x)) := by
  have hpos : imm.toNat ≠ 0 := fun h0 => hne (List.length_eq_zero_iff.mp (hlen.trans h0))
  rw [exec, execLdbits, if_pos (by rw [hdin, length_renderBits, hlen]), if_neg hpos, hdin, parseBits_renderBits,
    ← compact_eq_canon hcfg hne]

theorem exec_ldbits_refused_iff (rd : VReg) (imm : BitVec 32) :
    exec (.ldbits rd imm) s = .refused .payloadLength ↔ s.din.length ≠ imm.toNat := by
  rw [exec, execLdbits]
  split
  · next h =>
    refine iff_of_false (fun hr => ?_) (not_not.mpr h)
    split at hr
    · cases hr
    · split at hr
      · cases hr
      · rw [storeValue] at hr
        split at hr <;> cases hr
  · next h => exact iff_of_true rfl h

theorem emitReg_of_value (g : Bits → List Byte) {rs1 : VReg} (h : s.read rs1 = .value x) :
    emitReg g rs1 s = .next (s.succeed (g x)) := by
  rw [emitReg, needValue_of_value h]

end BitStrings

end Sys2Proof.Machine

namespace Sys2Proof.Proofs

open Machine

/-- Settles O31: `List.set` changes the one position. -/
theorem setbitRun : Obligations.SetbitRun := by
  intro s rd imm x hx hlt
  refine ⟨x.set imm.toNat true, List.length_set, fun p => ?_, exec_setbit_of_build hx hlt⟩
  rw [List.getElem?_set]
  split
  · next h => rw [if_pos h.symm]
  · next h => rw [if_neg (Ne.symm h)]

/-- Settles O32: after the write the register is a value, which the builder check of both commands refuses. -/
theorem sealRun : Obligations.SealRun := by
  intro s rd x hx
  have hread : ((s.write rd (.value x)).succeed []).read rd = .value x := by simp
  have hcheck := needBuild_of_value hread
  exact ⟨_, exec_seal_of_build hx, rfl, hread, exec_seal_of_error hcheck, exec_setbit_of_error hcheck⟩

/-- Settles O33: the payload is the rendering of `x`, so it is read back as `x` (`parseBits_renderBits`). -/
theorem ldbitsRun : Obligations.LdbitsRun := by
  rintro s rd imm x ⟨hcfg, -, -⟩ hne hlen hdin hcap
  rw [exec_ldbits_eq_storeValue hcfg rd hne hlen hdin, storeValue_of_capOk rd hcap]

/-- Settles O34. -/
theorem ldbitsPayloadLength : Obligations.LdbitsPayloadLength := fun _ rd imm => (exec_ldbits_refused_iff rd imm).symm

/-- Settles O35. -/
theorem rdbitsRun : Obligations.RdbitsRun := fun _ _ x hx =>
  ⟨renderBits x, length_renderBits x, fun _ => List.getElem?_map, emitReg_of_value renderBits hx⟩

/-- Settles O36: `LDBITS` reads what `RDBITS` gave, and the canonical form of a stored value fits (`capOk_canon_sval`). -/
theorem rdbitsThenLdbits : Obligations.RdbitsThenLdbits := by
  intro s rs1 rd imm x hs hx hlen
  have hstored := storable_of_value hs hx
  obtain ⟨hcfg, -, -⟩ := hs
  obtain ⟨r, hout, -, -, -, hdout⟩ := s.succeed_response (renderBits x)
  refine ⟨_, r, emitReg_of_value renderBits hx, hout, ?_⟩
  exact (exec_ldbits_eq_storeValue (s := (s.succeed (renderBits x)).setDin r.dout) hcfg rd hstored.1 hlen hdout).trans
    (storeValue_of_capOk rd (capOk_canon_sval hcfg hstored))

end Sys2Proof.Proofs

/-! The arithmetic commands (O37 to O41): each stores the canonical form of its unit's value. -/

namespace Sys2Proof.Machine

section Arithmetic

variable {s : State} {rd rs1 rs2 : VReg} {a b : Bits}

theorem arith_of_ok {op : Nat → Bits → Bits → Except Cause Bits} {y : Bits} (ha : s.read rs1 = .value a)
    (hb : s.read rs2 = .value b) (hy : op s.cfg.wordWidth a b = .ok y) : arith op rd rs1 rs2 s = storeValue s rd y := by
  rw [arith_of_values op ha hb, hy]

theorem arith_ok_of_eq {f : Nat → Bits → Bits → Bits} {y : Bits} (ha : s.read rs1 = .value a)
    (hb : s.read rs2 = .value b) (hy : f s.cfg.wordWidth a b = y) :
    arith (fun W a b => .ok (f W a b)) rd rs1 rs2 s = storeValue s rd y :=
  arith_of_ok ha hb (congrArg Except.ok hy)

/-- The values of the arithmetic commands on operands `a` and `b`: R98, R101, R112, R125, R128. -/
inductive ArithValue (W : Nat) (rd rs1 rs2 : VReg) (a b : Bits) : Instr → Int → Prop where
  | add : ArithValue W rd rs1 rs2 a b (.add rd rs1 rs2) (sval a + sval b)
  | sub : ArithValue W rd rs1 rs2 a b (.sub rd rs1 rs2) (if minneg b then sval a + sval b else sval a - sval b)
  | mul : ArithValue W rd rs1 rs2 a b (.mul rd rs1 rs2)
      (if sval b < 0 ∧ minneg a = true then -(sval a * sval b) else sval a * sval b)
  | div (hb0 : sval b ≠ 0) : ArithValue W rd rs1 rs2 a b (.div rd rs1 rs2) ((sval a).tdiv (sval b))
  | mod {v : Int} (hb0 : sval b ≠ 0) (hv : ModAnswer W (sval a) (sval b) v) :
      ArithValue W rd rs1 rs2 a b (.mod rd rs1 rs2) v

variable {i : Instr} {v : Int} (hs : s.Inv) (ha : s.read rs1 = .value a) (hb : s.read rs2 = .value b)
  (hv : ArithValue s.cfg.wordWidth rd rs1 rs2 a b i v)
include hs ha hb hv

/-- Each unit gives the canonical form of its value, and the command stores it. -/
theorem exec_eq_storeValue : exec i s = storeValue s rd (canon s.cfg.wordWidth v) := by
  obtain ⟨ha', -, -⟩ := storable_of_value hs ha
  obtain ⟨hb', -, -⟩ := storable_of_value hs hb
  obtain ⟨hcfg, -, -⟩ := hs
  cases hv with
  | add => exact arith_ok_of_eq ha hb (addseq_eq_canon hcfg ha' hb')
  | sub => exact arith_ok_of_eq ha hb (subseq_eq_canon hcfg ha' hb')
  | mul => exact arith_ok_of_eq ha hb (mulseq_eq_canon_ite hcfg ha' hb')
  | div hb0 => exact arith_of_ok ha hb (divseq_eq_canon hcfg ha' hb' hb0)
  | mod hb0 hv => exact arith_of_ok ha hb (modseq_eq_canon hcfg ha' hb' hb0 hv)

theorem exec_arith_of_capOk (hcap : capOk s.cfg (canon s.cfg.wordWidth v) = true) :
    exec i s = .next ((s.write rd (.value (canon s.cfg.wordWidth v))).succeed []) := by
  rw [exec_eq_storeValue hs ha hb hv, storeValue_of_capOk rd hcap]

theorem exec_arith_of_not_capOk (hcap : capOk s.cfg (canon s.cfg.wordWidth v) = false) :
    exec i s = .next (s.raise .capacityFault) := by
  rw [exec_eq_storeValue hs ha hb hv, storeValue_of_not_capOk rd hcap]

end Arithmetic

end Sys2Proof.Machine

namespace Sys2Proof.Proofs

open Machine

/-- Settles O37. -/
theorem addRun : Obligations.AddRun := fun _ _ _ _ _ _ hs ha hb hcap => exec_arith_of_capOk hs ha hb .add hcap

/-- Settles O38. -/
theorem subRun : Obligations.SubRun := by
  rintro s rd rs1 rs2 a b v hs ha hb rfl hcap
  exact exec_arith_of_capOk hs ha hb .sub hcap

/-- Settles O39. -/
theorem mulRun : Obligations.MulRun := by
  rintro s rd rs1 rs2 a b v hs ha hb rfl hcap
  exact exec_arith_of_capOk hs ha hb .mul hcap

/-- Settles O40. -/
theorem divRun : Obligations.DivRun := fun _ _ _ _ _ _ hs ha hb hb0 hcap =>
  exec_arith_of_capOk hs ha hb (.div hb0) hcap

/-- Settles O41. -/
theorem modRun : Obligations.ModRun := fun _ _ _ _ _ _ _ hs ha hb hb0 hv hcap =>
  exec_arith_of_capOk hs ha hb (.mod hb0 hv) hcap

end Sys2Proof.Proofs

/-! The commands that show a value (O42, O43, O44): `EQ` and `LT` by the signed values, `ISNEG` and `ISODD` by sign and parity
of the signed value, `TODEC` by its numeral. -/

namespace Sys2Proof.Machine

section Shown

variable {s : State} {rs1 rs2 : VReg} {a b x : Bits}

theorem compareRegs_of_values (p : Nat → Bits → Bits → Bool) (ha : s.read rs1 = .value a) (hb : s.read rs2 = .value b) :
    compareRegs p rs1 rs2 s = .next ((s.setT (p s.cfg.wordWidth a b)).succeed []) := by
  rw [compareRegs, needValue_of_value ha, needValue_of_value hb]

theorem testReg_of_value (p : Bits → Bool) (h : s.read rs1 = .value x) :
    testReg p rs1 s = .next ((s.setT (p x)).succeed []) := by
  rw [testReg, needValue_of_value h]

theorem equals_eq_decide {W : Nat} (hW : 2 ≤ W) (ha : a ≠ []) (hb : b ≠ []) :
    equals W a b = decide (sval a = sval b) := by
  rw [Bool.eq_iff_iff, decide_eq_true_iff]
  exact equals_iff_sval_eq hW ha hb

theorem lessthan_eq_decide {W : Nat} (hW : 2 ≤ W) (ha : a ≠ []) (hb : b ≠ []) :
    lessthan W a b = if minneg b then decide (sval a < 2 ^ (b.length - 1)) else decide (sval a < sval b) := by
  rw [Bool.eq_iff_iff]
  split
  · next h => rw [decide_eq_true_iff, lessthan_iff_of_minneg hW ha hb h]
  · next h => rw [decide_eq_true_iff, lessthan_iff_of_not_minneg hW ha hb (Bool.eq_false_iff.mpr h)]

theorem sign_eq_decide (hx : x ≠ []) : sign x = decide (sval x < 0) := by
  rw [Bool.eq_iff_iff, decide_eq_true_iff]
  exact (sval_neg_iff hx).symm

/-- The sign's weight is even, so the last bit is the parity, for a negative value too. -/
theorem lsb_eq_decide (hx : x ≠ []) : lsb x = decide (sval x % 2 = 1) := by
  obtain rfl | ⟨y, c, rfl⟩ := List.eq_nil_or_concat' x
  · exact absurd rfl hx
  · have hlast : lsb (y ++ [c]) = c := by simp [lsb]
    have hval : sval (y ++ [c]) = c.toNat + 2 * (uval y - (sign (y ++ [c])).toNat * 2 ^ y.length) := by
      rw [sval_eq_uval_sub_sign, uval_append_singleton, List.length_append, List.length_singleton, pow_succ]
      push_cast
      ring
    rw [hlast, hval, Int.add_mul_emod_self_left]
    cases c <;> rfl

end Shown

end Sys2Proof.Machine

namespace Sys2Proof.Proofs

open Machine

/-- Settles O42. -/
theorem eqLtRun : Obligations.EqLtRun := by
  intro s rs1 rs2 a b hs ha hb
  obtain ⟨ha', -, -⟩ := storable_of_value hs ha
  obtain ⟨hb', -, -⟩ := storable_of_value hs hb
  obtain ⟨hcfg, -, -⟩ := hs
  rw [← equals_eq_decide hcfg ha' hb', ← lessthan_eq_decide hcfg ha' hb']
  exact ⟨compareRegs_of_values equals ha hb, compareRegs_of_values lessthan ha hb⟩

/-- Settles O43. -/
theorem isnegIsoddRun : Obligations.IsnegIsoddRun := by
  intro s rs1 x hs hx
  obtain ⟨hne, -, -⟩ := storable_of_value hs hx
  rw [← sign_eq_decide hne, ← lsb_eq_decide hne]
  exact ⟨testReg_of_value sign hx, testReg_of_value lsb hx⟩

/-- Settles O44, by the value of the decimal converter (`todecValue`). -/
theorem todecRun : Obligations.TodecRun := by
  intro s rs1 x hs hx
  obtain ⟨hne, -, -⟩ := storable_of_value hs hx
  rw [← todecValue x hne]
  exact emitReg_of_value todec hx

end Sys2Proof.Proofs

/-! Family `60_exceptions.md`: the order of the register checks (O45) and the capacity check (O49). -/

namespace Sys2Proof.Machine

/-! ### The first register that fails (R172) -/

section Sources

variable {s : State} {pre post : List VReg} {r rs1 rs2 : VReg} {c : Cause}

/-- Of the registers `l`, the first one that fails its value check fails with the cause `c`. -/
def FirstFailing (s : State) (l : List VReg) (c : Cause) : Prop :=
  ∃ pre r post, l = pre ++ r :: post ∧ (∀ q ∈ pre, ∃ x, needValue s q = .ok x) ∧ needValue s r = .error c

theorem not_firstFailing_nil : ¬FirstFailing s [] c := by
  rintro ⟨pre, r, post, h, -, -⟩
  exact List.append_ne_nil_of_right_ne_nil pre (List.cons_ne_nil r post) h.symm

/-- The first register fails, or it holds a value and the first failing one is among the others. -/
theorem FirstFailing.cons {l : List VReg} (h : FirstFailing s (r :: l) c) :
    needValue s r = .error c ∨ (∃ x, needValue s r = .ok x) ∧ FirstFailing s l c := by
  obtain ⟨pre, q, post, hl, hpre, hq⟩ := h
  cases pre with
  | nil =>
    cases hl
    exact .inl hq
  | cons p pre =>
    cases hl
    obtain ⟨hp, hpre⟩ := List.forall_mem_cons.mp hpre
    exact .inr ⟨hp, pre, q, post, rfl, hpre, hq⟩

theorem FirstFailing.one (h : FirstFailing s [rs1] c) : needValue s rs1 = .error c :=
  h.cons.resolve_right fun ⟨_, hnil⟩ => not_firstFailing_nil hnil

theorem FirstFailing.two (h : FirstFailing s [rs1, rs2] c) :
    needValue s rs1 = .error c ∨ ∃ x, needValue s rs1 = .ok x ∧ needValue s rs2 = .error c := by
  obtain h1 | ⟨⟨x, hx⟩, h2⟩ := h.cons
  · exact .inl h1
  · exact .inr ⟨x, hx, h2.one⟩

theorem arith_of_firstFailing (op : Nat → Bits → Bits → Except Cause Bits) (rd : VReg)
    (h : FirstFailing s [rs1, rs2] c) : arith op rd rs1 rs2 s = .next (s.raise c) := by
  obtain h1 | ⟨x, h1, h2⟩ := h.two <;> simp [arith, h1]
  simp [h2]

theorem compareRegs_of_firstFailing (p : Nat → Bits → Bits → Bool) (h : FirstFailing s [rs1, rs2] c) :
    compareRegs p rs1 rs2 s = .next (s.raise c) := by
  obtain h1 | ⟨x, h1, h2⟩ := h.two <;> simp [compareRegs, h1]
  simp [h2]

theorem testReg_of_firstFailing (p : Bits → Bool) (h : FirstFailing s [rs1] c) :
    testReg p rs1 s = .next (s.raise c) := by
  rw [testReg, h.one]

theorem emitReg_of_firstFailing (g : Bits → List Byte) (h : FirstFailing s [rs1] c) :
    emitReg g rs1 s = .next (s.raise c) := by
  rw [emitReg, h.one]

/-- R172: the first source that fails decides the outcome. -/
theorem exec_of_firstFailing {i : Instr} (h : FirstFailing s i.valueSources c) : exec i s = .next (s.raise c) := by
  cases i with
  | nop | clrerr | new | setbit | sealv | ldbits => exact absurd h not_firstFailing_nil
  | add | sub | mul | div | mod =>
    simp only [exec, execAdd, execSub, execMul, execDiv, execMod]
    exact arith_of_firstFailing _ _ h
  | eq | lt => exact compareRegs_of_firstFailing _ h
  | isneg | isodd => exact testReg_of_firstFailing _ h
  | rdbits | todec => exact emitReg_of_firstFailing _ h

/-- The value checks pass, or there is a first register that fails. -/
theorem values_or_firstFailing (s : State) (l : List VReg) :
    (∀ r ∈ l, ∃ x, s.read r = .value x) ∨ ∃ c, FirstFailing s l c := by
  induction l with
  | nil => exact .inl (List.forall_mem_nil _)
  | cons r l ih =>
    cases hr : needValue s r with
    | error c => exact .inr ⟨c, [], r, l, rfl, List.forall_mem_nil _, hr⟩
    | ok x =>
      refine ih.imp (fun hl => List.forall_mem_cons.mpr ⟨⟨x, needValue_ok_iff.mp hr⟩, hl⟩) ?_
      rintro ⟨c, pre, q, post, rfl, hpre, hq⟩
      exact ⟨c, r :: pre, q, post, rfl, List.forall_mem_cons.mpr ⟨⟨x, hr⟩, hpre⟩, hq⟩

theorem FirstFailing.ne_capacityFault {l : List VReg} (h : FirstFailing s l c) : c ≠ .capacityFault := by
  obtain ⟨pre, q, post, -, -, hq⟩ := h
  obtain ⟨rfl, -⟩ | ⟨rfl, -⟩ := needValue_error hq <;> decide

/-- R172: so does the builder a command works on. -/
theorem exec_of_builder_error {i : Instr} (hi : i.builderSource = some r) (h : needBuild s r = .error c) :
    exec i s = .next (s.raise c) := by
  cases i with
  | setbit =>
    cases hi
    exact exec_setbit_of_error h _
  | sealv =>
    cases hi
    exact exec_seal_of_error h
  | _ => cases hi

end Sources

/-! ### Where CapacityFault cannot come from (R176) -/

/-- The outcome is not a next state that shows CapacityFault. -/
def NoCapacityFault (r : Result) : Prop := ∀ t, r = .next t → t.lastCode ≠ some Cause.capacityFault.code

section Unbounded

variable {s : State}

theorem noCapacityFault_succeed (s : State) (d : List Byte) : NoCapacityFault (.next (s.succeed d)) := by
  rintro t ⟨⟩
  rw [State.lastCode_succeed]
  decide

theorem noCapacityFault_raise {c : Cause} (hc : c ≠ .capacityFault) : NoCapacityFault (.next (s.raise c)) := by
  rintro t ⟨⟩
  rw [State.lastCode_raise]
  exact fun h => hc (Cause.code_injective (Option.some.inj h))

theorem noCapacityFault_builder {j : VReg} {c : Cause} (h : needBuild s j = .error c) :
    NoCapacityFault (.next (s.raise c)) := by
  obtain ⟨rfl, -⟩ | ⟨rfl, -⟩ := needBuild_error h <;> exact noCapacityFault_raise (by decide)

variable (hcap : s.cfg.capWords = none)
include hcap

theorem holdsWords_of_unbounded (n : Nat) : holdsWords s.cfg n = true := by rw [holdsWords, hcap]

theorem noCapacityFault_storeValue (rd : VReg) (y : Bits) : NoCapacityFault (storeValue s rd y) := by
  rw [storeValue_of_capOk rd (holdsWords_of_unbounded hcap _)]
  exact noCapacityFault_succeed _ _

/-- Format R3: beside the store, only a zero divisor can fail on two values. -/
theorem noCapacityFault_arith {op : Nat → Bits → Bits → Except Cause Bits} {rd rs1 rs2 : VReg}
    (hvals : ∀ r ∈ [rs1, rs2], ∃ x, s.read r = .value x)
    (hop : ∀ a b c, op s.cfg.wordWidth a b = .error c → divseq s.cfg.wordWidth a b = .error c) :
    NoCapacityFault (arith op rd rs1 rs2 s) := by
  obtain ⟨a, ha⟩ := hvals rs1 (by simp)
  obtain ⟨b, hb⟩ := hvals rs2 (by simp)
  rw [arith_of_values op ha hb]
  split
  · next c hc =>
    obtain ⟨rfl, -⟩ := divseq_error_iff.mp (hop a b c hc)
    exact noCapacityFault_raise (by decide)
  · exact noCapacityFault_storeValue hcap rd _

/-- The commands whose sources are all values. -/
theorem noCapacityFault_of_values {i : Instr} (hvals : ∀ r ∈ i.valueSources, ∃ x, s.read r = .value x) :
    NoCapacityFault (exec i s) := by
  cases i with
  | nop | clrerr => exact noCapacityFault_succeed _ _
  | new rd rnd imm =>
    rw [exec, execNew, if_pos (holdsWords_of_unbounded hcap _)]
    split
    · split
      · exact fun t h => nomatch h
      · exact noCapacityFault_succeed _ _
    · exact noCapacityFault_succeed _ _
  | setbit rd imm =>
    rw [exec, execSetbit]
    split
    · next hc => exact noCapacityFault_builder hc
    · split
      · exact noCapacityFault_succeed _ _
      · exact noCapacityFault_raise (by decide)
  | sealv rd =>
    rw [exec, execSeal]
    split
    · next hc => exact noCapacityFault_builder hc
    · exact noCapacityFault_succeed _ _
  | ldbits rd imm =>
    rw [exec, execLdbits]
    split
    · split
      · exact noCapacityFault_raise (by decide)
      · split
        · exact noCapacityFault_raise (by decide)
        · exact noCapacityFault_storeValue hcap rd _
    · exact fun t h => nomatch h
  | add | sub | mul =>
    simp only [exec, execAdd, execSub, execMul]
    exact noCapacityFault_arith hcap hvals fun _ _ _ h => nomatch h
  | div => exact noCapacityFault_arith hcap hvals fun _ _ _ h => h
  | mod => exact noCapacityFault_arith hcap hvals fun a b c h => (modseq_error_iff _ a b c).mp h
  | eq rs1 rs2 | lt rs1 rs2 =>
    obtain ⟨a, ha⟩ := hvals rs1 (by simp [Instr.valueSources])
    obtain ⟨b, hb⟩ := hvals rs2 (by simp [Instr.valueSources])
    simp only [exec, execEq, execLt, compareRegs_of_values _ ha hb]
    exact noCapacityFault_succeed _ _
  | isneg rs1 | isodd rs1 =>
    obtain ⟨x, hx⟩ := hvals rs1 (by simp [Instr.valueSources])
    simp only [exec, execIsneg, execIsodd, testReg_of_value _ hx]
    exact noCapacityFault_succeed _ _
  | rdbits rs1 | todec rs1 =>
    obtain ⟨x, hx⟩ := hvals rs1 (by simp [Instr.valueSources])
    simp only [exec, execRdbits, execTodec, emitReg_of_value _ hx]
    exact noCapacityFault_succeed _ _

theorem noCapacityFault_exec (i : Instr) : NoCapacityFault (exec i s) := by
  obtain hvals | ⟨c, hc⟩ := values_or_firstFailing s i.valueSources
  · exact noCapacityFault_of_values hcap hvals
  · rw [exec_of_firstFailing hc]
    exact noCapacityFault_raise hc.ne_capacityFault

end Unbounded

end Sys2Proof.Machine

namespace Sys2Proof.Proofs

open Machine

/-- Settles O45: the first source that fails its check decides the outcome (`exec_of_firstFailing`), and the check itself
asks for EMPTY first. -/
theorem sourceChecks : Obligations.SourceChecks := by
  refine ⟨fun i s pre r post hsrc hpre => ?_, fun i s r hsrc => ⟨fun h => ?_, fun ⟨x, h⟩ => ?_⟩⟩
  · have hfirst : ∀ c, needValue s r = .error c → FirstFailing s i.valueSources c := fun c hc =>
      ⟨pre, r, post, hsrc, fun q hq => (hpre q hq).imp fun _ => needValue_of_value, hc⟩
    exact ⟨fun h => exec_of_firstFailing (hfirst _ (needValue_of_empty h)),
      fun ⟨_, h⟩ => exec_of_firstFailing (hfirst _ (needValue_of_build h))⟩
  · exact exec_of_builder_error hsrc (needBuild_of_empty h)
  · exact exec_of_builder_error hsrc (needBuild_of_value h)

/-- Settles O49: the canonical form of each command's value is stored or does not fit (`exec_arith_of_not_capOk`); an
unbounded register holds every result (`noCapacityFault_exec`). -/
theorem capacityChecks : Obligations.CapacityChecks := by
  refine ⟨fun s rd rnd imm n hcfg hn hcap => exec_new_of_not_holds hcfg hn rnd hcap, ?_, ?_,
    fun i s t hcap h => noCapacityFault_exec hcap i t h⟩
  · rintro s rd imm x ⟨hcfg, -, -⟩ hne hlen hdin hcap
    rw [exec_ldbits_eq_storeValue hcfg rd hne hlen hdin, storeValue_of_not_capOk rd hcap]
  · rintro s rd rs1 rs2 a b v i hs ha hb hi hcap
    have hv : ArithValue s.cfg.wordWidth rd rs1 rs2 a b i v := by
      obtain ⟨rfl, rfl⟩ | ⟨rfl, rfl⟩ | ⟨rfl, rfl⟩ | ⟨rfl, hb0, rfl⟩ | ⟨rfl, hb0, hmod⟩ := hi
      · exact .add
      · exact .sub
      · exact .mul
      · exact .div hb0
      · exact .mod hb0 hmod
    exact exec_arith_of_not_capOk hs ha hb hv hcap

end Sys2Proof.Proofs

/-! What commands leave unchanged (O52, O53, O54), the status bits over a step (O55, O56), and what a successful command finds
and leaves in its registers (O57). -/

namespace Sys2Proof.Machine

/-! ### Frames (R27, R28, R31) -/

/-- R28, for one command: `FERR` is as before, or it was 0 and has taken the cause that the response shows. -/
def FerrKept (s t : State) : Prop :=
  t.ferr = s.ferr ∨ s.ferr = none ∧ ∃ c : Cause, t.ferr = some c ∧ t.lastCode = some c.code

theorem ferrKept_raise (s : State) (c : Cause) : FerrKept s (s.raise c) := by
  obtain ⟨hnone, hsome⟩ | hsame := s.noteFault_ferr_cases c
  · exact .inr ⟨hnone, c, hsome, s.lastCode_raise c⟩
  · exact .inl hsame

/-- What the command `i` leaves unchanged between `s` and `t`, and that it gives one response. -/
structure Frame (i : Instr) (s t : State) : Prop where
  cfg : t.cfg = s.cfg
  host : t.host = s.host
  read : ∀ r, i.dest ≠ some r → t.read r = s.read r
  flag : i.writesT = false ∨ t.lastCode ≠ some 0 → t.t = s.t
  rbit : i.draws = false → t.rbit = s.rbit
  ferr : i ≠ .clrerr → FerrKept s t
  out : ∃ r, t.out = r :: s.out ∧ (i.dest ≠ none ∨ i.writesT = true → r.dout = [])

/-- Each outcome of `exec_cases` changes one thing only. -/
theorem exec_frame {i : Instr} {s t : State} (h : exec i s = .next t) : Frame i s t := by
  obtain ⟨c, rfl⟩ | ⟨hdest, hT, -, d, rfl⟩ | ⟨rfl, rfl⟩ | ⟨hT, b, rfl⟩ | ⟨rd, r, hdest, -, rfl⟩ |
    ⟨rd, imm, x, src, rfl, -, rfl⟩ := exec_cases h
  · exact ⟨rfl, rfl, fun _ _ => rfl, fun _ => rfl, fun _ => rfl, fun _ => ferrKept_raise s c, _, rfl, fun _ => rfl⟩
  · refine ⟨rfl, rfl, fun _ _ => rfl, fun _ => rfl, fun _ => rfl, fun _ => .inl rfl, _, rfl, ?_⟩
    simp [hdest, hT]
  · exact ⟨rfl, rfl, fun _ _ => rfl, fun _ => rfl, fun _ => rfl, fun hne => absurd rfl hne, _, rfl, fun _ => rfl⟩
  · refine ⟨rfl, rfl, fun _ _ => rfl, ?_, fun _ => rfl, fun _ => .inl rfl, _, rfl, fun _ => rfl⟩
    simp [hT]
  · refine ⟨rfl, rfl, fun j hj => ?_, fun _ => rfl, fun _ => rfl, fun _ => .inl rfl, _, rfl, fun _ => rfl⟩
    rw [State.read_succeed, State.read_write_other s (by rintro rfl; exact hj hdest)]
  · refine ⟨rfl, rfl, fun j hj => ?_, fun _ => rfl, nofun, fun _ => .inl rfl, _, rfl, fun _ => rfl⟩
    rw [State.read_succeed, State.read_write_other _ (by rintro rfl; exact hj rfl), State.read_setRbit]

theorem Frame.regs {i : Instr} {s t : State} (h : Frame i s t) (hdest : i.dest = none) : t.regs = s.regs :=
  State.regs_ext fun r => h.read r (by simp [hdest])

theorem dest_eq_none_of_writesT {i : Instr} (h : i.writesT = true) :
    i.dest = none ∧ i.draws = false ∧ i ≠ .clrerr := by
  cases i with
  | eq | lt | isneg | isodd => exact ⟨rfl, rfl, nofun⟩
  | _ => cases h

theorem draws_of_dest_eq_none {i : Instr} (h : i.dest = none) : i.draws = false := by
  cases i with
  | new => cases h
  | _ => rfl

theorem writesT_of_dest_eq_some {i : Instr} {rd : VReg} (h : i.dest = some rd) : i.writesT = false ∧ i ≠ .clrerr := by
  cases i with
  | nop | clrerr | rdbits | eq | lt | isneg | isodd | todec => cases h
  | _ => exact ⟨rfl, nofun⟩

end Sys2Proof.Machine

namespace Sys2Proof.Proofs

open Machine

/-- Settles O52. -/
theorem frameWriters : Obligations.FrameWriters := by
  intro i s t rd hdest h
  obtain ⟨hT, hne⟩ := writesT_of_dest_eq_some hdest
  have hf := exec_frame h
  obtain ⟨r, hout, hdout⟩ := hf.out
  exact ⟨fun j hj => hf.read j (by rw [hdest]; exact fun e => hj (Option.some.inj e).symm), hf.flag (.inl hT), hf.cfg,
    hf.host, hf.ferr hne, hf.rbit, r, hout, hdout (.inl (by simp [hdest]))⟩

/-- Settles O53. -/
theorem framePredicates : Obligations.FramePredicates := by
  intro i s t hT h
  obtain ⟨hdest, hdraws, hne⟩ := dest_eq_none_of_writesT hT
  have hf := exec_frame h
  obtain ⟨r, hout, hdout⟩ := hf.out
  exact ⟨hf.regs hdest, hf.cfg, hf.host, hf.rbit hdraws, hf.ferr hne, fun hfail => hf.flag (.inr hfail), r, hout,
    hdout (.inr hT)⟩

/-- Settles O54. -/
theorem frameReporting : Obligations.FrameReporting := by
  intro i s t hdest hT h
  have hf := exec_frame h
  obtain ⟨r, hout, -⟩ := hf.out
  refine ⟨hf.regs hdest, hf.flag (.inl hT), hf.cfg, hf.host, hf.rbit (draws_of_dest_eq_none hdest), hf.ferr, ?_, r, hout⟩
  rintro rfl
  cases h
  rfl

end Sys2Proof.Proofs

namespace Sys2Proof.Machine

/-! ### Command words -/

/-- What a command word may do: no command, which is a fault, or a command executed. -/
theorem runWord_cases {w : CmdWord} {s t : State} (h : runWord w s = .next t) :
    t = s.raise .illegalCommand ∨ ∃ i, decode w = .ok i ∧ exec i s = .next t := by
  cases hd : decode w with
  | error e =>
    rw [runWord_of_error hd] at h
    cases h
    exact .inl rfl
  | ok i => exact .inr ⟨i, rfl, runWord_of_ok hd s ▸ h⟩

theorem runWord_ferr {w : CmdWord} {s t : State} (h : runWord w s = .next t) :
    FerrKept s t ∨ decode w = .ok .clrerr ∧ t.ferr = none := by
  obtain rfl | ⟨i, hd, h⟩ := runWord_cases h
  · exact .inl (ferrKept_raise s _)
  · by_cases hi : i = .clrerr
    · subst hi
      cases h
      exact .inr ⟨hd, rfl⟩
    · exact .inl ((exec_frame h).ferr hi)

theorem runWord_flag {w : CmdWord} {s t : State} (h : runWord w s = .next t) (hne : t.t ≠ s.t) :
    ∃ i, decode w = .ok i ∧ i.writesT = true ∧ t.lastCode = some 0 := by
  obtain rfl | ⟨i, hd, h⟩ := runWord_cases h
  · exact absurd rfl hne
  · have hflag := mt (exec_frame h).flag hne
    simp only [not_or, Bool.not_eq_false, not_not] at hflag
    exact ⟨i, hd, hflag⟩

/-- What a step may be: waiting, reset, or a command word run with its payload on `DIN`. -/
theorem step_cases {s t : State} (h : step s = .next t) :
    (s.host = [] ∧ t = s) ∨ (∃ rest, s.host = .reset :: rest ∧ t = (s.setHost rest).resetBlock) ∨
      ∃ w payload rest, s.host = .command w payload :: rest ∧
        runWord w ((s.setHost rest).setDin payload) = .next t := by
  cases hh : s.host with
  | nil =>
    rw [step_of_idle hh] at h
    cases h
    exact .inl ⟨rfl, rfl⟩
  | cons a rest =>
    cases a with
    | reset =>
      rw [step_of_reset hh] at h
      cases h
      exact .inr (.inl ⟨rest, rfl, rfl⟩)
    | command w payload => exact .inr (.inr ⟨w, payload, rest, rfl, step_of_command hh ▸ h⟩)

end Sys2Proof.Machine

namespace Sys2Proof.Proofs

open Machine

/-- Settles O55: waiting keeps `FERR`, reset clears it, and a command word keeps it or is `CLRERR` (`runWord_ferr`). -/
theorem ferrSticky : Obligations.FerrSticky := by
  intro s t h
  obtain ⟨-, rfl⟩ | ⟨rest, hhost, rfl⟩ | ⟨w, payload, rest, hhost, h⟩ := step_cases h
  · exact ⟨fun c hc => .inl hc, fun hnone => .inl hnone⟩
  · exact ⟨fun c hc => .inr ⟨rfl, .inl ⟨rest, hhost⟩⟩, fun _ => .inl rfl⟩
  · obtain (hkept | ⟨hnone, c, hc, hcode⟩) | ⟨hd, hclear⟩ := runWord_ferr h
    · exact ⟨fun c hc => .inl (hkept.trans hc), fun hnone => .inl (hkept.trans hnone)⟩
    · exact ⟨fun c' hc' => absurd (hnone.symm.trans hc') (by simp), fun _ => .inr ⟨c, hc, hcode⟩⟩
    · exact ⟨fun c hc => .inr ⟨hclear, .inr ⟨w, payload, rest, hhost, hd⟩⟩, fun _ => .inl hclear⟩

/-- Settles O56: waiting keeps `T`, reset clears it, and a command word that changes it is a successful predicate
(`runWord_flag`). -/
theorem tWrittenByPredicates : Obligations.TWrittenByPredicates := by
  intro s t h hne
  obtain ⟨-, rfl⟩ | ⟨rest, hhost, rfl⟩ | ⟨w, payload, rest, hhost, h⟩ := step_cases h
  · exact absurd rfl hne
  · exact .inl ⟨rfl, rest, hhost⟩
  · obtain ⟨i, hd, hT, hcode⟩ := runWord_flag h hne
    exact .inr ⟨w, payload, rest, i, hhost, hd, hT, hcode⟩

end Sys2Proof.Proofs

namespace Sys2Proof.Machine

/-! ### Success (R34, R23) -/

theorem State.lastCode_raise_ne_zero (s : State) (c : Cause) : (s.raise c).lastCode ≠ some 0 := by
  rw [State.lastCode_raise]
  exact fun h => c.code_ne_zero (Option.some.inj h)

section Success

variable {s t : State}

/-- A successful command had all its sources as values. -/
theorem values_of_success {i : Instr} (h : exec i s = .next t) (hok : t.lastCode = some 0) :
    ∀ r ∈ i.valueSources, ∃ x, s.read r = .value x := by
  refine (values_or_firstFailing s i.valueSources).resolve_right fun ⟨c, hc⟩ => ?_
  rw [exec_of_firstFailing hc] at h
  cases h
  exact s.lastCode_raise_ne_zero c hok

theorem build_of_success {i : Instr} {r : VReg} (hi : i.builderSource = some r) (h : exec i s = .next t)
    (hok : t.lastCode = some 0) : ∃ x, s.read r = .build x := by
  cases hb : needBuild s r with
  | ok x => exact ⟨x, needBuild_ok_iff.mp hb⟩
  | error c =>
    rw [exec_of_builder_error hi hb] at h
    cases h
    exact absurd hok (s.lastCode_raise_ne_zero c)

theorem new_of_success {rd : VReg} {rnd : Bool} {imm : BitVec 32} (h : exec (.new rd rnd imm) s = .next t)
    (hok : t.lastCode = some 0) : ∃ x, t.read rd = .build x := by
  rw [exec, execNew] at h
  split at h
  · split at h
    · split at h
      · cases h
      · cases h
        exact ⟨_, State.read_write_self _ rd _⟩
    · cases h
      exact ⟨_, State.read_write_self _ rd _⟩
  · cases h
    exact absurd hok (s.lastCode_raise_ne_zero _)

theorem setbit_of_success {rd : VReg} {imm : BitVec 32} (h : exec (.setbit rd imm) s = .next t)
    (hok : t.lastCode = some 0) : ∃ x y, s.read rd = .build x ∧ t.read rd = .build y := by
  obtain ⟨x, hx⟩ := build_of_success (i := .setbit rd imm) rfl h hok
  obtain hlt | hle := lt_or_ge imm.toNat x.length
  · rw [exec_setbit_of_build hx hlt] at h
    cases h
    exact ⟨x, _, hx, State.read_write_self s rd _⟩
  · rw [exec_setbit_beyond hx hle] at h
    cases h
    exact absurd hok (s.lastCode_raise_ne_zero _)

theorem seal_of_success {rd : VReg} (h : exec (.sealv rd) s = .next t) (hok : t.lastCode = some 0) :
    ∃ x, s.read rd = .build x ∧ t.read rd = .value x := by
  obtain ⟨x, hx⟩ := build_of_success (i := .sealv rd) rfl h hok
  rw [exec_seal_of_build hx] at h
  cases h
  exact ⟨x, hx, State.read_write_self s rd _⟩

/-- A store that succeeds leaves its value. -/
theorem storeValue_of_success {rd : VReg} {y : Bits} (h : storeValue s rd y = .next t) (hok : t.lastCode = some 0) :
    t.read rd = .value y := by
  obtain ⟨-, e⟩ | ⟨-, e⟩ := storeValue_cases s rd y <;> rw [e] at h <;> cases h
  · exact State.read_write_self s rd _
  · exact absurd hok (s.lastCode_raise_ne_zero _)

/-! ### Canonical results (R23) -/

variable {W : Nat} {a b : Bits}

/-- `y` is the canonical form of some value. -/
def IsCanon (W : Nat) (y : Bits) : Prop := ∃ v, y = canon W v

theorem IsCanon.canonical (hW : 2 ≤ W) {y : Bits} (h : IsCanon W y) : Canonical W y := by
  obtain ⟨v, rfl⟩ := h
  exact canonical_canon hW v

theorem sval_ne_zero_of_divseq_ok (hW : 2 ≤ W) (hb : b ≠ []) {q : Bits} (h : divseq W a b = .ok q) : sval b ≠ 0 := by
  intro hb0
  rw [divseq_error_iff.mpr ⟨rfl, (equals_zeroWord_iff hW hb).mpr hb0⟩] at h
  cases h

theorem isCanon_of_divseq_ok (hW : 2 ≤ W) (ha : a ≠ []) (hb : b ≠ []) {q : Bits} (h : divseq W a b = .ok q) :
    IsCanon W q := by
  rw [divseq_eq_canon hW ha hb (sval_ne_zero_of_divseq_ok hW hb h)] at h
  cases h
  exact ⟨_, rfl⟩

theorem isCanon_of_modseq_ok (hW : 2 ≤ W) (ha : a ≠ []) (hb : b ≠ []) {r : Bits} (h : modseq W a b = .ok r) :
    IsCanon W r := by
  obtain hzero | ⟨q, hq, -⟩ := divseq_cases (Nat.lt_of_lt_of_le Nat.two_pos hW) a b
  · rw [(modseq_error_iff W a b _).mpr hzero] at h
    cases h
  · obtain ⟨v, hv⟩ := exists_modAnswer W (sval a) (sval b)
    rw [modseq_eq_canon hW ha hb (sval_ne_zero_of_divseq_ok hW hb hq) hv] at h
    cases h
    exact ⟨v, rfl⟩

variable {rd rs1 rs2 : VReg} (hs : s.Inv)
include hs

/-- Format R3, with an operation whose results are canonical. -/
theorem arith_canonical {op : Nat → Bits → Bits → Except Cause Bits}
    (hop : ∀ a b y, a ≠ [] → b ≠ [] → op s.cfg.wordWidth a b = .ok y → IsCanon s.cfg.wordWidth y)
    (h : arith op rd rs1 rs2 s = .next t) (hok : t.lastCode = some 0) :
    ∃ y, t.read rd = .value y ∧ Canonical s.cfg.wordWidth y := by
  obtain ⟨c, e⟩ | ⟨a, b, y, ha, hb, hy, -, e⟩ := arith_cases op rd rs1 rs2 s <;> rw [e] at h <;> cases h
  · exact absurd hok (s.lastCode_raise_ne_zero c)
  · obtain ⟨ha', -, -⟩ := storable_of_value hs ha
    obtain ⟨hb', -, -⟩ := storable_of_value hs hb
    obtain ⟨hcfg, -, -⟩ := hs
    exact ⟨y, State.read_write_self s rd _, (hop a b y ha' hb' hy).canonical hcfg⟩

/-- Format R3, with an operation that raises no error of its own. -/
theorem arith_ok_canonical {f : Nat → Bits → Bits → Bits}
    (hf : ∀ a b, a ≠ [] → b ≠ [] → IsCanon s.cfg.wordWidth (f s.cfg.wordWidth a b))
    (h : arith (fun W a b => .ok (f W a b)) rd rs1 rs2 s = .next t) (hok : t.lastCode = some 0) :
    ∃ y, t.read rd = .value y ∧ Canonical s.cfg.wordWidth y := by
  refine arith_canonical hs (fun a b y ha hb hy => ?_) h hok
  cases hy
  exact hf a b ha hb

theorem ldbits_canonical {imm : BitVec 32} (h : exec (.ldbits rd imm) s = .next t) (hok : t.lastCode = some 0) :
    ∃ y, t.read rd = .value y ∧ Canonical s.cfg.wordWidth y := by
  obtain ⟨hcfg, -, -⟩ := hs
  rw [exec, execLdbits] at h
  split at h
  · next hlen =>
    split at h
    · cases h
      exact absurd hok (s.lastCode_raise_ne_zero _)
    · next hpos =>
      split at h
      · cases h
        exact absurd hok (s.lastCode_raise_ne_zero _)
      · next x hx =>
        have hne : x ≠ [] := by
          rintro rfl
          rw [parseBits_some hx] at hlen
          exact hpos hlen.symm
        refine ⟨_, storeValue_of_success h hok, ?_⟩
        rw [compact_eq_canon hcfg hne]
        exact canonical_canon hcfg _
  · cases h

/-- R34, R23: `LDBITS` and the arithmetic commands leave a canonical value. -/
theorem exec_canonical {i : Instr} (hdest : i.dest = some rd) (hbuild : i.builderSource = none)
    (hnew : ∀ rnd imm, i ≠ .new rd rnd imm) (h : exec i s = .next t) (hok : t.lastCode = some 0) :
    ∃ y, t.read rd = .value y ∧ Canonical s.cfg.wordWidth y := by
  have ⟨hcfg, _, _⟩ := hs
  cases i with
  | nop | clrerr | rdbits | eq | lt | isneg | isodd | todec => cases hdest
  | setbit | sealv => cases hbuild
  | new =>
    cases hdest
    exact absurd rfl (hnew _ _)
  | ldbits =>
    cases hdest
    exact ldbits_canonical hs h hok
  | add =>
    cases hdest
    exact arith_ok_canonical hs (fun _ _ ha hb => ⟨_, addseq_eq_canon hcfg ha hb⟩) h hok
  | sub =>
    cases hdest
    exact arith_ok_canonical hs (fun _ _ ha hb => ⟨_, subseq_eq_canon hcfg ha hb⟩) h hok
  | mul =>
    cases hdest
    exact arith_ok_canonical hs (fun _ _ ha hb => ⟨_, mulseq_eq_canon_ite hcfg ha hb⟩) h hok
  | div =>
    cases hdest
    exact arith_canonical hs (fun _ _ _ ha hb hy => isCanon_of_divseq_ok hcfg ha hb hy) h hok
  | mod =>
    cases hdest
    exact arith_canonical hs (fun _ _ _ ha hb hy => isCanon_of_modseq_ok hcfg ha hb hy) h hok

end Success

/-! ### Completion (R196, R198) -/

section Completion

variable {s : State}

theorem storeValue_completes (s : State) (rd : VReg) (y : Bits) : ∃ t, storeValue s rd y = .next t := by
  obtain ⟨-, e⟩ | ⟨-, e⟩ := storeValue_cases s rd y <;> exact ⟨_, e⟩

theorem execNew_completes {rd : VReg} {rnd : Bool} {imm : BitVec 32} (h : (Instr.new rd rnd imm).drawsAnswered s) :
    ∃ t, execNew rd rnd imm s = .next t := by
  rw [execNew]
  split
  · cases rnd with
    | false => exact ⟨_, rfl⟩
    | true =>
      rw [RandomSource.drawBits_of_answers h]
      exact ⟨_, rfl⟩
  · exact ⟨_, rfl⟩

theorem execLdbits_completes (rd : VReg) {imm : BitVec 32} (h : s.din.length = imm.toNat) :
    ∃ t, execLdbits rd imm s = .next t := by
  rw [execLdbits, if_pos h]
  split
  · exact ⟨_, rfl⟩
  · split
    · exact ⟨_, rfl⟩
    · exact storeValue_completes s rd _

theorem exec_completes {i : Instr} (hpay : i.payloadKept s.din) (hdraws : i.drawsAnswered s) :
    ∃ t, exec i s = .next t := by
  cases i with
  | nop | clrerr => exact ⟨_, rfl⟩
  | new rd rnd imm => exact execNew_completes hdraws
  | ldbits rd imm => exact execLdbits_completes rd hpay
  | setbit rd imm =>
    rw [exec, execSetbit]
    split
    · exact ⟨_, rfl⟩
    · split <;> exact ⟨_, rfl⟩
  | sealv rd =>
    rw [exec, execSeal]
    split <;> exact ⟨_, rfl⟩
  | add rd rs1 rs2 | sub rd rs1 rs2 | mul rd rs1 rs2 | div rd rs1 rs2 | mod rd rs1 rs2 =>
    simp only [exec, execAdd, execSub, execMul, execDiv, execMod]
    obtain ⟨_, e⟩ | ⟨_, _, _, -, -, -, -, e⟩ := arith_cases _ rd rs1 rs2 s <;> exact ⟨_, e⟩
  | eq rs1 rs2 | lt rs1 rs2 => obtain ⟨_, e⟩ | ⟨_, _, -, -, e⟩ := compareRegs_cases _ rs1 rs2 s <;> exact ⟨_, e⟩
  | isneg rs1 | isodd rs1 => obtain ⟨_, e⟩ | ⟨_, -, e⟩ := testReg_cases _ rs1 s <;> exact ⟨_, e⟩
  | rdbits rs1 | todec rs1 => obtain ⟨_, e⟩ | ⟨_, -, e⟩ := emitReg_cases _ rs1 s <;> exact ⟨_, e⟩

end Completion

/-! ### The host's later actions (R47) -/

/-- The outcome with another list of actions for later. -/
def withHost (later : List HostAction) : Result → Result
  | .next t => .next (t.setHost later)
  | .fault r => .fault r
  | .refused r => .refused r

section Later

variable (s : State) (later : List HostAction)

theorem storeValue_setHost (rd : VReg) (y : Bits) :
    storeValue (s.setHost later) rd y = withHost later (storeValue s rd y) := by
  rw [storeValue, storeValue, State.setHost_cfg]
  split <;> rfl

theorem needValue_setHost (r : VReg) : needValue (s.setHost later) r = needValue s r := rfl

theorem needBuild_setHost (r : VReg) : needBuild (s.setHost later) r = needBuild s r := rfl

theorem arith_setHost (op : Nat → Bits → Bits → Except Cause Bits) (rd rs1 rs2 : VReg) :
    arith op rd rs1 rs2 (s.setHost later) = withHost later (arith op rd rs1 rs2 s) := by
  simp only [arith, needValue_setHost, State.setHost_cfg]
  split
  · rfl
  · split
    · rfl
    · split
      · rfl
      · exact storeValue_setHost s later rd _

theorem compareRegs_setHost (p : Nat → Bits → Bits → Bool) (rs1 rs2 : VReg) :
    compareRegs p rs1 rs2 (s.setHost later) = withHost later (compareRegs p rs1 rs2 s) := by
  simp only [compareRegs, needValue_setHost, State.setHost_cfg]
  split
  · rfl
  · split <;> rfl

theorem testReg_setHost (p : Bits → Bool) (rs1 : VReg) :
    testReg p rs1 (s.setHost later) = withHost later (testReg p rs1 s) := by
  simp only [testReg, needValue_setHost]
  split <;> rfl

theorem emitReg_setHost (g : Bits → List Byte) (rs1 : VReg) :
    emitReg g rs1 (s.setHost later) = withHost later (emitReg g rs1 s) := by
  simp only [emitReg, needValue_setHost]
  split <;> rfl

theorem execNew_setHost (rd : VReg) (rnd : Bool) (imm : BitVec 32) :
    execNew rd rnd imm (s.setHost later) = withHost later (execNew rd rnd imm s) := by
  by_cases hcap : holdsWords s.cfg (allocWords s.cfg.wordWidth imm) = true
  · simp only [execNew, State.setHost_cfg, State.setHost_rbit, hcap, if_true]
    split
    · split <;> rfl
    · rfl
  · simp only [execNew, State.setHost_cfg, hcap]
    rfl

theorem execSetbit_setHost (rd : VReg) (imm : BitVec 32) :
    execSetbit rd imm (s.setHost later) = withHost later (execSetbit rd imm s) := by
  simp only [execSetbit, needBuild_setHost]
  split
  · rfl
  · split <;> rfl

theorem execSeal_setHost (rd : VReg) : execSeal rd (s.setHost later) = withHost later (execSeal rd s) := by
  simp only [execSeal, needBuild_setHost]
  split <;> rfl

theorem execLdbits_setHost (rd : VReg) (imm : BitVec 32) :
    execLdbits rd imm (s.setHost later) = withHost later (execLdbits rd imm s) := by
  by_cases hlen : s.din.length = imm.toNat
  · simp only [execLdbits, State.setHost_cfg, State.setHost_din, hlen, if_true]
    split
    · rfl
    · split
      · rfl
      · exact storeValue_setHost s later rd _
  · simp only [execLdbits, State.setHost_din, hlen, if_false]
    rfl

/-- R47: a command does the same whatever comes later, and leaves it. -/
theorem exec_setHost (i : Instr) : exec i (s.setHost later) = withHost later (exec i s) := by
  cases i with
  | nop | clrerr => rfl
  | new => exact execNew_setHost s later _ _ _
  | setbit => exact execSetbit_setHost s later _ _
  | sealv => exact execSeal_setHost s later _
  | ldbits => exact execLdbits_setHost s later _ _
  | add | sub | mul =>
    simp only [exec, execAdd, execSub, execMul]
    exact arith_setHost s later _ _ _ _
  | div | mod => exact arith_setHost s later _ _ _ _
  | eq | lt => exact compareRegs_setHost s later _ _ _
  | isneg | isodd => exact testReg_setHost s later _ _
  | rdbits | todec => exact emitReg_setHost s later _ _

theorem runWord_setHost (w : CmdWord) : runWord w (s.setHost later) = withHost later (runWord w s) := by
  cases hd : decode w with
  | error e =>
    rw [runWord_of_error hd, runWord_of_error hd]
    rfl
  | ok i => rw [runWord_of_ok hd, runWord_of_ok hd, exec_setHost]

end Later

/-! ### Runs (R199) -/

theorem runWord_frame {w : CmdWord} {s t : State} (h : runWord w s = .next t) :
    t.cfg = s.cfg ∧ t.host = s.host ∧ ∃ r, t.out = r :: s.out := by
  obtain rfl | ⟨i, -, h⟩ := runWord_cases h
  · exact ⟨rfl, rfl, _, rfl⟩
  · have hf := exec_frame h
    obtain ⟨r, hout, -⟩ := hf.out
    exact ⟨hf.cfg, hf.host, r, hout⟩

/-- A step takes the first action, and gives one response when it is a command. -/
theorem step_frame {s t : State} {a : HostAction} {rest : List HostAction} (hhost : s.host = a :: rest)
    (h : step s = .next t) :
    t.host = rest ∧ t.cfg = s.cfg ∧ ∃ new, t.out = new ++ s.out ∧ new.length = [a].countP HostAction.isCommand := by
  cases a with
  | reset =>
    rw [step_of_reset hhost] at h
    cases h
    exact ⟨rfl, rfl, [], rfl, rfl⟩
  | command w payload =>
    rw [step_of_command hhost] at h
    obtain ⟨hcfg, hrest, r, hout⟩ := runWord_frame h
    exact ⟨hrest, hcfg, [r], hout, rfl⟩

/-- A run over its whole list: the invariant of the induction, with the new responses in front of the old ones. -/
theorem run_frame {acts : List HostAction} {s t : State} (hhost : s.host = acts)
    (h : Host.Core.run Sys2Proof.core acts.length s = .next t) :
    t.host = [] ∧ t.cfg = s.cfg ∧ ∃ new, t.out = new ++ s.out ∧ new.length = acts.countP HostAction.isCommand := by
  induction acts generalizing s with
  | nil =>
    cases h
    exact ⟨hhost, rfl, [], rfl, rfl⟩
  | cons a rest ih =>
    cases hstep : step s with
    | fault r => simp [Host.Core.run, core, hstep] at h
    | refused r => simp [Host.Core.run, core, hstep] at h
    | next s1 =>
      obtain ⟨hhost1, hcfg1, new1, hout1, hlen1⟩ := step_frame hhost hstep
      have hrun : Host.Core.run core rest.length s1 = .next t := by simpa [Host.Core.run, core, hstep] using h
      obtain ⟨hnil, hcfg, new, hout, hlen⟩ := ih hhost1 hrun
      refine ⟨hnil, hcfg.trans hcfg1, new ++ new1, by rw [hout, hout1, List.append_assoc], ?_⟩
      rw [List.length_append, hlen, hlen1, ← List.singleton_append (l := rest), List.countP_append, Nat.add_comm]

end Sys2Proof.Machine

namespace Sys2Proof.Proofs

open Machine

/-- Settles O57: a success had its sources as values (`values_of_success`) or its builder (`build_of_success`), keeps every
register but the destination (`exec_frame`), and leaves a canonical value there (`exec_canonical`). -/
theorem registerTransitions : Obligations.RegisterTransitions := by
  intro i s t hs h hok
  refine ⟨?_, ?_, ?_, fun rd hdest hbuild hnew => exec_canonical hs hdest hbuild hnew h hok, fun r hr => ?_⟩
  · rintro rd rnd imm rfl
    exact new_of_success h hok
  · rintro rd imm rfl
    exact setbit_of_success h hok
  · rintro rd rfl
    exact seal_of_success h hok
  · obtain ⟨x, hx⟩ := values_of_success h hok r hr
    exact ⟨x, hx, fun hdest => ((exec_frame h).read r hdest).trans hx⟩

/-- Settles O58: a word that is no command is a fault, which is a next state; the others by `exec_completes`. -/
theorem everyCommandCompletes : Obligations.EveryCommandCompletes := by
  intro w s h
  cases hd : decode w with
  | error e => exact ⟨_, runWord_of_error hd s⟩
  | ok i =>
    obtain ⟨hpay, hdraws⟩ := h i hd
    rw [runWord_of_ok hd]
    exact exec_completes hpay hdraws

/-- Settles O59: the two runs differ only in the actions left for later (`runWord_setHost`). -/
theorem laterCommandsUnseen : Obligations.LaterCommandsUnseen := by
  intro s t a later other h
  obtain ⟨hhost, -, -⟩ := step_frame rfl h
  refine ⟨hhost, ?_⟩
  cases a with
  | reset =>
    cases h
    rfl
  | command w payload =>
    have hsame := runWord_setHost (((s.setHost (.command w payload :: later)).setHost later).setDin payload) other w
    rw [← step_of_command (s := s.setHost (.command w payload :: later)) rfl, h] at hsame
    exact hsame

/-- Settles O60. -/
theorem oneResponsePerCommand : Obligations.OneResponsePerCommand := by
  intro acts s t h
  obtain ⟨hhost, hcfg, new, hout, hlen⟩ := run_frame (s := s.setHost acts) rfl h
  refine ⟨hhost, hcfg, ?_, ?_⟩
  · rw [hout, List.length_append, hlen, Nat.add_comm]
    rfl
  · rw [hout]
    exact hlen ▸ List.drop_left

end Sys2Proof.Proofs
